-- ==== Sys2Proof/Word.lean ====
section
/-! DEFINITION. The two plain value types of the spec (00_scope.md R13): a `u32` and a `Byte`. -/

namespace Sys2Proof

/-- A `u32`: an unsigned integer in [0, 2^32), and one 32-bit word of the command sequence (R13, R90). -/
abbrev Word := BitVec 32

/-- A `Byte`: an unsigned integer in [0, 256) (R13). -/
abbrev Byte := BitVec 8

end Sys2Proof
end

