-- ==== Sys2Proof/Config.lean ====
section
/-! DEFINITION. The parameters of an HVE instance (00_scope.md R9, R11; 10_state.md R45): the lane count `W` and the
admitted memory `MEM_ADMIT`. `NV` = 32, `AW` = 32, the block size 64, the record sizes 32 and 20 and the load
stride 64 are fixed by R11 and stand as literals where a rule uses them. No rule leaves a result undefined, so there
is no free value here. -/

namespace Sys2Proof

/-- The legal lane counts `W` (R9): 1, 2, 4, 8 and 16. No other instance exists. -/
inductive Width where
  | w1 | w2 | w4 | w8 | w16
  deriving DecidableEq, Repr

/-- The number of lanes. -/
def Width.lanes : Width → Nat
  | .w1 => 1 | .w2 => 2 | .w4 => 4 | .w8 => 8 | .w16 => 16

/-- `log2(W)`, CFG's LANES_LOG2 field (R38). -/
def Width.log2 : Width → Nat
  | .w1 => 0 | .w2 => 1 | .w4 => 2 | .w8 => 3 | .w16 => 4

/-- The instance with `n` lanes; any value but 1, 2, 4, 8 and 16 is refused (R9). -/
def Width.ofNat? : Nat → Option Width
  | 1 => some .w1 | 2 => some .w2 | 4 => some .w4 | 8 => some .w8 | 16 => some .w16
  | _ => none

/-- A run of `size` byte addresses from `base` on. -/
structure Region where
  base : Nat
  size : Nat
  deriving DecidableEq, Repr

/-- What is fixed for an instance's lifetime (R45). `admitted` is the OPEN parameter `MEM_ADMIT` (20_memory.md R61):
the union of its regions. Every predicate on [0, 2^32) is such a union (DEDUCED, log 5, safe). -/
structure Instance where
  width    : Width
  admitted : List Region
  deriving DecidableEq, Repr

/-- The instance `State.reset` is taken for: one lane, every byte address admitted. The spec gives `W` and `MEM_ADMIT`
no default (DESIGN CHOICE, log 4, unsafe): every statement is about all instances. -/
def Instance.reference : Instance :=
  { width := .w1, admitted := [{ base := 0, size := 2 ^ 32 }] }

end Sys2Proof
end

