-- ==== Sys2Proof/Syntax.lean ====
section
/-! DEFINITION. The commands of HVE: one constructor per row of spec/opcode_table.json (30_encoding.md R93). The
pseudo-instructions of R103 are other spellings of these commands' packets and have no constructor. -/

namespace Sys2Proof

/-- The number of a vector register, `v0` to `v31`; any value is legal (R92). -/
abbrev Reg := Fin 32

/-- The byte order of an access (00_scope.md R15, 30_encoding.md R96). -/
inductive ByteOrder where
  | be
  | le
  deriving DecidableEq, Repr

/-- A command with its operands (R93, R94). `d`, `a`, `b`, `v` are register numbers, `n` a shift or rotate amount,
`recSize` the record size of SAVE, and every address, constant and count is a whole argument word. -/
inductive Instr where
  | mirror (d : Reg) (imm : Word)
  | add (d a b : Reg)
  | xor (d a b : Reg)
  | or (d a b : Reg)
  | and (d a b : Reg)
  | andn (d a b : Reg)
  | shl (d a : Reg) (n : BitVec 5)
  | shr (d a : Reg) (n : BitVec 5)
  | rotl (d a : Reg) (n : BitVec 5)
  | load (v : Reg) (bo : ByteOrder) (addr : Word)
  | save (v : Reg) (bo : ByteOrder) (recSize : BitVec 12) (addr : Word)
  | shaInit
  | shaBlock (addr : Word)
  | shaSave (out : Word)
  | shaTrunk (out inp count : Word)
  | rmdInit
  | rmdBlock (addr : Word)
  | rmdSave (out : Word)
  | rmdTrunk (out inp count : Word)
  deriving DecidableEq, Repr

end Sys2Proof
end

