-- ==== Sys2Proof/WellFormed.lean ====
section
/-! DEFINITION. The operand values an encoding may carry (30_encoding.md R95, R97): the only two checks that a field's
width does not already make. -/

namespace Sys2Proof

/-- ROTL takes `n` in 1..31 (R95) and SAVE a record size in 4..4095 (R97); every other operand value is legal. -/
def Instr.wf : Instr → Bool
  | .mirror _ _ => true
  | .add _ _ _ => true
  | .xor _ _ _ => true
  | .or _ _ _ => true
  | .and _ _ _ => true
  | .andn _ _ _ => true
  | .shl _ _ _ => true
  | .shr _ _ _ => true
  | .rotl _ _ n => decide (1 ≤ n.toNat)
  | .load _ _ _ => true
  | .save _ _ recSize _ => decide (4 ≤ recSize.toNat)
  | .shaInit => true
  | .shaBlock _ => true
  | .shaSave _ => true
  | .shaTrunk _ _ _ => true
  | .rmdInit => true
  | .rmdBlock _ => true
  | .rmdSave _ => true
  | .rmdTrunk _ _ _ => true

end Sys2Proof
end

