-- ==== Sys2Proof/Decode.lean ====
section
/-! DEFINITION. Command encoding (30_encoding.md): opcodes and packet lengths (R93), header formats and fields (R91,
R94), the decoder (R98, R99) and, after it, the encoder written from the same tables (R91, R102). -/

namespace Sys2Proof

/-- The nineteen assigned opcodes, by mnemonic (R93). -/
inductive Opcode where
  | mirror | add | xor | or | and | andn | shl | shr | rotl | load | save
  | shaInit | shaBlock | shaSave | shaTrunk | rmdInit | rmdBlock | rmdSave | rmdTrunk
  deriving DecidableEq, Repr

/-- The opcode number, header bits 31:26 (R93). -/
def opcodeBits : Opcode → BitVec 6
  | .mirror => 0x01 | .add => 0x02 | .xor => 0x03 | .or => 0x04 | .and => 0x05 | .andn => 0x06
  | .shl => 0x07 | .shr => 0x08 | .rotl => 0x09 | .load => 0x0A | .save => 0x0B
  | .shaInit => 0x10 | .shaBlock => 0x11 | .shaSave => 0x12 | .shaTrunk => 0x13
  | .rmdInit => 0x14 | .rmdBlock => 0x15 | .rmdSave => 0x16 | .rmdTrunk => 0x17

/-- The command an opcode number names; 0x00, 0x0C to 0x0F and 0x18 to 0x3F name none (R99 (a)). -/
def opcodeOf? (op : BitVec 6) : Option Opcode :=
  match op.toNat with
  | 0x01 => some .mirror | 0x02 => some .add | 0x03 => some .xor | 0x04 => some .or
  | 0x05 => some .and | 0x06 => some .andn | 0x07 => some .shl | 0x08 => some .shr
  | 0x09 => some .rotl | 0x0A => some .load | 0x0B => some .save
  | 0x10 => some .shaInit | 0x11 => some .shaBlock | 0x12 => some .shaSave | 0x13 => some .shaTrunk
  | 0x14 => some .rmdInit | 0x15 => some .rmdBlock | 0x16 => some .rmdSave | 0x17 => some .rmdTrunk
  | _ => none

/-- The packet length in words, header included (R93). -/
def packetLength : Opcode → Nat
  | .mirror => 2
  | .add => 1 | .xor => 1 | .or => 1 | .and => 1 | .andn => 1
  | .shl => 1 | .shr => 1 | .rotl => 1
  | .load => 2 | .save => 2
  | .shaInit => 1 | .shaBlock => 2 | .shaSave => 2 | .shaTrunk => 4
  | .rmdInit => 1 | .rmdBlock => 2 | .rmdSave => 2 | .rmdTrunk => 4

/-- Why a packet does not decode (R98, R99). All but `truncated` are the cause ILLEGAL. -/
inductive Reject where
  | reservedOpcode
  | truncated
  | reservedField
  | rotateByZero
  | recordTooSmall
  deriving DecidableEq, Repr

/-- What the decoder finds at the front of the command sequence. -/
inductive Decoded where
  /-- No word is left: nothing to decode, and no fault (R98). -/
  | endOfSequence
  /-- A command, and the words after its packet. -/
  | command (i : Instr) (rest : List Word)
  /-- A packet the decoder rejects, with the reason. -/
  | rejected (why : Reject)
  deriving DecidableEq, Repr

/-- Header bits 31:26 (R90). -/
def hdrOp (hdr : Word) : BitVec 6 := hdr.extractLsb' 26 6

/-- Header bits 25:21: the register `d` or `v` (R91). -/
def hdrD (hdr : Word) : Reg := (hdr.extractLsb' 21 5).toFin

/-- Header bits 20:16: the source register `a` (R91). -/
def hdrA (hdr : Word) : Reg := (hdr.extractLsb' 16 5).toFin

/-- Header bits 15:11: the source register `b` (R91). -/
def hdrB (hdr : Word) : Reg := (hdr.extractLsb' 11 5).toFin

/-- Header bits 10:6: the amount `n` (R94). -/
def hdrN (hdr : Word) : BitVec 5 := hdr.extractLsb' 6 5

/-- Header bits 19:8: the record size `rec` (R94). -/
def hdrRec (hdr : Word) : BitVec 12 := hdr.extractLsb' 8 12

/-- Header bit 20: 0 selects big-endian, 1 little-endian (R96). -/
def hdrBo (hdr : Word) : ByteOrder := if hdr.getLsbD 20 then .le else .be

/-- Argument word `k` + 1 of a packet whose words after the header are `args` (R93). -/
def argWord (args : List Word) (k : Nat) : Word := args.getD k 0

/-- The form-R packet of a two-source command: `n` and `z6` are reserved (R98, R99 (b)). -/
def decodeTwoSource (hdr : Word) (make : Reg → Reg → Reg → Instr) : Except Reject Instr :=
  if hdr.extractLsb' 0 6 ≠ 0 then .error .reservedField
  else if hdrN hdr ≠ 0 then .error .reservedField
  else .ok (make (hdrD hdr) (hdrA hdr) (hdrB hdr))

/-- The form-R packet of a shift: `b` and `z6` are reserved (R98, R99 (b)). -/
def decodeShift (hdr : Word) (make : Reg → Reg → BitVec 5 → Instr) : Except Reject Instr :=
  if hdr.extractLsb' 0 6 ≠ 0 then .error .reservedField
  else if hdrB hdr ≠ 0 then .error .reservedField
  else .ok (make (hdrD hdr) (hdrA hdr) (hdrN hdr))

/-- The form-E packet of an engine command: `z26` is reserved (R98, R99 (b)). -/
def decodeEngine (hdr : Word) (i : Instr) : Except Reject Instr :=
  if hdr.extractLsb' 0 26 ≠ 0 then .error .reservedField else .ok i

/-- The field checks of R98, in its order, and the command's operands (R94). -/
def decodeFields (op : Opcode) (hdr : Word) (args : List Word) : Except Reject Instr :=
  match op with
  | .mirror =>
    if hdr.extractLsb' 0 21 ≠ 0 then .error .reservedField
    else .ok (.mirror (hdrD hdr) (argWord args 0))
  | .add => decodeTwoSource hdr .add
  | .xor => decodeTwoSource hdr .xor
  | .or => decodeTwoSource hdr .or
  | .and => decodeTwoSource hdr .and
  | .andn => decodeTwoSource hdr .andn
  | .shl => decodeShift hdr .shl
  | .shr => decodeShift hdr .shr
  | .rotl =>
    if hdr.extractLsb' 0 6 ≠ 0 then .error .reservedField
    else if hdrB hdr ≠ 0 then .error .reservedField
    else if hdrN hdr = 0 then .error .rotateByZero
    else .ok (.rotl (hdrD hdr) (hdrA hdr) (hdrN hdr))
  | .load =>
    if hdr.extractLsb' 0 8 ≠ 0 then .error .reservedField
    else if hdrRec hdr ≠ 0 then .error .reservedField
    else .ok (.load (hdrD hdr) (hdrBo hdr) (argWord args 0))
  | .save =>
    if hdr.extractLsb' 0 8 ≠ 0 then .error .reservedField
    else if (hdrRec hdr).toNat < 4 then .error .recordTooSmall
    else .ok (.save (hdrD hdr) (hdrBo hdr) (hdrRec hdr) (argWord args 0))
  | .shaInit => decodeEngine hdr .shaInit
  | .shaBlock => decodeEngine hdr (.shaBlock (argWord args 0))
  | .shaSave => decodeEngine hdr (.shaSave (argWord args 0))
  | .shaTrunk => decodeEngine hdr (.shaTrunk (argWord args 0) (argWord args 1) (argWord args 2))
  | .rmdInit => decodeEngine hdr .rmdInit
  | .rmdBlock => decodeEngine hdr (.rmdBlock (argWord args 0))
  | .rmdSave => decodeEngine hdr (.rmdSave (argWord args 0))
  | .rmdTrunk => decodeEngine hdr (.rmdTrunk (argWord args 0) (argWord args 1) (argWord args 2))

/-- Decode of the packet at the front of the words not yet consumed (R98): the opcode, then the packet's length, then
its fields. Total: every list of words is the end of the sequence, a command or a rejection by name. -/
def decode : List Word → Decoded
  | [] => .endOfSequence
  | hdr :: args =>
    match opcodeOf? (hdrOp hdr) with
    | none => .rejected .reservedOpcode
    | some op =>
      if args.length + 1 < packetLength op then .rejected .truncated
      else
        match decodeFields op hdr args with
        | .ok i => .command i (args.drop (packetLength op - 1))
        | .error why => .rejected why

/-! ### The encoder, from the formats of R91 and the syntax table of R102 -/

/-- The opcode of a command (R93). -/
def Instr.opcode : Instr → Opcode
  | .mirror _ _ => .mirror
  | .add _ _ _ => .add
  | .xor _ _ _ => .xor
  | .or _ _ _ => .or
  | .and _ _ _ => .and
  | .andn _ _ _ => .andn
  | .shl _ _ _ => .shl
  | .shr _ _ _ => .shr
  | .rotl _ _ _ => .rotl
  | .load _ _ _ => .load
  | .save _ _ _ _ => .save
  | .shaInit => .shaInit
  | .shaBlock _ => .shaBlock
  | .shaSave _ => .shaSave
  | .shaTrunk _ _ _ => .shaTrunk
  | .rmdInit => .rmdInit
  | .rmdBlock _ => .rmdBlock
  | .rmdSave _ => .rmdSave
  | .rmdTrunk _ _ _ => .rmdTrunk

/-- A register number as a 5-bit field (R92). -/
def regBits (r : Reg) : BitVec 5 := BitVec.ofFin r

/-- The bit `bo` (R96). -/
def boBit : ByteOrder → BitVec 1
  | .be => 0
  | .le => 1

/-- The field `x` in the header bits from `lo` on. -/
def placeField {k : Nat} (x : BitVec k) (lo : Nat) : Word := x.setWidth 32 <<< lo

/-- Format R (R91): op, d, a, b, n; z6 is 0. -/
def formatR (op : Opcode) (d a b : Reg) (n : BitVec 5) : Word :=
  placeField (opcodeBits op) 26 ||| placeField (regBits d) 21 ||| placeField (regBits a) 16
    ||| placeField (regBits b) 11 ||| placeField n 6

/-- Format I (R91): op, d; z21 is 0. -/
def formatI (op : Opcode) (d : Reg) : Word :=
  placeField (opcodeBits op) 26 ||| placeField (regBits d) 21

/-- Format M (R91): op, v, bo, rec; z8 is 0. -/
def formatM (op : Opcode) (v : Reg) (bo : ByteOrder) (recSize : BitVec 12) : Word :=
  placeField (opcodeBits op) 26 ||| placeField (regBits v) 21 ||| placeField (boBit bo) 20
    ||| placeField recSize 8

/-- Format E (R91): op; z26 is 0. -/
def formatE (op : Opcode) : Word := placeField (opcodeBits op) 26

/-- The packet of a command: its header word and its argument words in order (R93, R102). -/
def encode : Instr → List Word
  | .mirror d imm => [formatI .mirror d, imm]
  | .add d a b => [formatR .add d a b 0]
  | .xor d a b => [formatR .xor d a b 0]
  | .or d a b => [formatR .or d a b 0]
  | .and d a b => [formatR .and d a b 0]
  | .andn d a b => [formatR .andn d a b 0]
  | .shl d a n => [formatR .shl d a 0 n]
  | .shr d a n => [formatR .shr d a 0 n]
  | .rotl d a n => [formatR .rotl d a 0 n]
  | .load v bo addr => [formatM .load v bo 0, addr]
  | .save v bo recSize addr => [formatM .save v bo recSize, addr]
  | .shaInit => [formatE .shaInit]
  | .shaBlock addr => [formatE .shaBlock, addr]
  | .shaSave out => [formatE .shaSave, out]
  | .shaTrunk out inp count => [formatE .shaTrunk, out, inp, count]
  | .rmdInit => [formatE .rmdInit]
  | .rmdBlock addr => [formatE .rmdBlock, addr]
  | .rmdSave out => [formatE .rmdSave, out]
  | .rmdTrunk out inp count => [formatE .rmdTrunk, out, inp, count]

/-! ### Words numbered as the opcode table numbers them -/

/-- The four words (the longest packet) whose bits are `w`, bit 0 the least significant bit of the first word, every
bit from `nbits` on 0. -/
def tableWords (nbits w : Nat) : List Word :=
  [BitVec.ofNat 32 (w % 2 ^ nbits), BitVec.ofNat 32 (w % 2 ^ nbits / 2 ^ 32),
   BitVec.ofNat 32 (w % 2 ^ nbits / 2 ^ 64), BitVec.ofNat 32 (w % 2 ^ nbits / 2 ^ 96)]

/-- The command the decoder reads from an instruction whose bits are `w`. -/
def decodeTableWord (nbits w : Nat) : Option Instr :=
  match decode (tableWords nbits w) with
  | .endOfSequence => none
  | .command i _ => some i
  | .rejected _ => none

end Sys2Proof
end

