-- ==== Sys2Proof/Machine/State.lean ====
section
/-! DEFINITION. The state of an HVE instance as plain data (10_state.md R46), the reasons a step can stop, and the state
right after reset (70_reset_and_hazards.md R350). -/

namespace Sys2Proof.Machine

/-- A `VectorWord`: the words of lanes 0 to W - 1, in lane order (00_scope.md R13, R18). In every state `State.Inv`
admits, its length is the instance's W. -/
abbrev VectorWord := List Word

/-- Eight like values `a` to `h`: a SHA-256 chaining value, or a HashState `HS[0..7]` of VectorWords (R32). -/
structure Hash8 (α : Type) where
  a : α
  b : α
  c : α
  d : α
  e : α
  f : α
  g : α
  h : α
  deriving DecidableEq, Repr

/-- Five like values `a` to `e`: a RIPEMD-160 chaining value, or a HashState `HR[0..4]` of VectorWords (R34). -/
structure Hash5 (α : Type) where
  a : α
  b : α
  c : α
  d : α
  e : α
  deriving DecidableEq, Repr

/-- The status of an engine (R33). -/
inductive EngineStatus where
  /-- The HashState holds no value that a command may read. -/
  | uninit
  /-- The HashState holds a chaining value that blocks may update. -/
  | active
  /-- The HashState has been extracted into a digest and is read-only. -/
  | final
  deriving DecidableEq, Repr

/-- The fault causes of 60_exceptions.md R301. Codes 0, 6 and 7 are never written, so they have no constructor. -/
inductive Cause where
  | illegal
  | truncated
  | unwritten
  | sequence
  | access
  deriving DecidableEq, Repr

/-- Data memory: (address, byte) pairs, addresses strictly rising, no byte 0 listed (an unlisted address reads 0:
DESIGN CHOICE, log 3, unsafe). -/
abbrev Memory := List Host.Cell

/-- Everything the spec gives an HVE instance (R46, R31, R43), and `inst`, the instance's fixed parameters (R45). -/
structure State where
  /-- `W` and `MEM_ADMIT`; no step changes them (R45). -/
  inst : Instance
  /-- The vector registers `V[0..31]` (R30). -/
  v : Vector VectorWord 32
  /-- Their written flags `Vw[0..31]` (R30). -/
  vw : Vector Bool 32
  /-- The command word counter (R31). -/
  pc : Word
  /-- The words of the command sequence from index `pc` on: the engine has not consumed them (R31, R43; log 6). -/
  cmds : List Word
  /-- The SHA-256 HashState `HS[0..7]` (R32). -/
  hs : Hash8 VectorWord
  /-- The SHA-256 engine status `STS` (R33). -/
  sts : EngineStatus
  /-- The RIPEMD-160 HashState `HR[0..4]` (R34). -/
  hr : Hash5 VectorWord
  /-- The RIPEMD-160 engine status `STR` (R33). -/
  str : EngineStatus
  /-- Host register 1, STATUS (R37). -/
  status : Word
  /-- Host register 3, FAULT_CMD (R39). -/
  faultCmd : Word
  /-- Host register 4, FAULT_PC (R40). -/
  faultPc : Word
  /-- Host register 5, FAULT_ADDR (R41). -/
  faultAddr : Word
  /-- The data memory, owned by the host (R43, 20_memory.md R60). -/
  mem : Memory
  deriving DecidableEq, Repr

/-- Why the machine stops with no next state. A fault of the spec (R300) is NOT one of these: taking it is a next state,
with the fault registers written (R304). -/
inductive Fault where
  /-- Raised by `step` alone, when STATUS.FAULT = 1: the engine is halted and executes no command until reset (R306,
  R364: never a final state). Safe: the machine stops, and its state is the one before the step. -/
  | halted
  deriving DecidableEq, Repr

/-- Why a command has no meaning. No command of this model is refused. -/
inductive Refusal where
  /-- An instruction whose arm gives it no meaning yet; raised by no arm of `exec`. Safe: nothing is claimed of it. -/
  | notModelled (mnemonic : String)
  deriving DecidableEq, Repr

/-- The outcome of a command or a step. -/
abbrev Result := Host.Outcome State Fault Refusal

/-- The state of instance `inst` right after reset, over a data memory that reset leaves as it is (R350, R351). The
spec gives `V`, `HS` and `HR` no value and lets no command read them; every lane is 0 here (DESIGN CHOICE, log 1
and log 2, unsafe). -/
def State.afterReset (inst : Instance) (mem : Memory) : State :=
  { inst := inst
    v := Vector.replicate 32 (List.replicate inst.width.lanes 0)
    vw := Vector.replicate 32 false
    pc := 0
    cmds := []
    hs :=
      { a := List.replicate inst.width.lanes 0, b := List.replicate inst.width.lanes 0
        c := List.replicate inst.width.lanes 0, d := List.replicate inst.width.lanes 0
        e := List.replicate inst.width.lanes 0, f := List.replicate inst.width.lanes 0
        g := List.replicate inst.width.lanes 0, h := List.replicate inst.width.lanes 0 }
    sts := .uninit
    hr :=
      { a := List.replicate inst.width.lanes 0, b := List.replicate inst.width.lanes 0
        c := List.replicate inst.width.lanes 0, d := List.replicate inst.width.lanes 0
        e := List.replicate inst.width.lanes 0 }
    str := .uninit
    status := 0
    faultCmd := 0
    faultPc := 0
    faultAddr := 0
    mem := mem }

/-- The machine right after reset: the reference instance (DESIGN CHOICE, log 4, unsafe) over a memory with nothing
listed (log 3). -/
def State.reset : State := State.afterReset Instance.reference []

end Sys2Proof.Machine
end

