-- ==== Sys2Proof/Machine/Flags.lean ====
section
/-! DEFINITION. The fields of the two composed host registers, STATUS (10_state.md R37) and CFG (R38). HVE has no
arithmetic flag, condition code or predicate (R42), so no command computes one. -/

namespace Sys2Proof.Machine

/-- The cause code written to STATUS.CAUSE (60_exceptions.md R301). -/
def causeCode : Cause → BitVec 3
  | .illegal => 1
  | .truncated => 2
  | .unwritten => 3
  | .sequence => 4
  | .access => 5

/-- STATUS after a fault: `{28'b0, cause[2:0], 1'b1}` (R304). -/
def statusWord (c : Cause) : Word := (0 : BitVec 28) ++ causeCode c ++ (1 : BitVec 1)

/-- STATUS.FAULT, bit 0 (R37). -/
def faultFlag (status : Word) : Bool := status.getLsbD 0

/-- STATUS.CAUSE, bits 3:1 (R37). -/
def causeField (status : Word) : BitVec 3 := status.extractLsb' 1 3

/-- CFG: LANES_LOG2 in bits 2:0, NVREG = 32 in bits 15:8, every other bit 0 (R38). -/
def cfgWord (w : Width) : Word :=
  (0 : BitVec 16) ++ (32 : BitVec 8) ++ (0 : BitVec 5) ++ BitVec.ofNat 3 w.log2

/-- The cause of a packet the decoder rejects (30_encoding.md R98, R99). -/
def rejectCause : Reject → Cause
  | .reservedOpcode => .illegal
  | .truncated => .truncated
  | .reservedField => .illegal
  | .rotateByZero => .illegal
  | .recordTooSmall => .illegal

end Sys2Proof.Machine
end

