-- ==== Sys2Proof/Machine/Ops.lean ====
section
/-! DEFINITION. The named operations over memory, registers and the command sequence (00_scope.md R16), admission
(20_memory.md R61), and taking a fault as ONE operation (60_exceptions.md R304). There is no return from a fault
(R308): only reset (Machine/Port.lean) leaves the halted state. -/

namespace Sys2Proof.Machine

/-! ### Data memory -/

/-- The byte at address `a`; an unlisted address reads 0 (DESIGN CHOICE, log 3, unsafe). -/
def Memory.read : Memory → Nat → Byte
  | [], _ => 0
  | (k, x) :: m, a => if a = k then x else Memory.read m a

/-- `m` with nothing listed at address `a`: it reads 0 there. -/
def Memory.clear : Memory → Nat → Memory
  | [], _ => []
  | (k, x) :: m, a => if k = a then Memory.clear m a else (k, x) :: Memory.clear m a

/-- `m` with byte `b` listed at address `a`, before the first higher address. -/
def Memory.list : Memory → Nat → Byte → Memory
  | [], a, b => [(a, b)]
  | (k, x) :: m, a, b => if a < k then (a, b) :: (k, x) :: m else (k, x) :: Memory.list m a b

/-- Store byte `b` at address `a`, keeping the canonical form: a byte 0 is held by listing nothing. -/
def Memory.write (m : Memory) (a : Nat) (b : Byte) : Memory :=
  if b = 0 then m.clear a else (m.clear a).list a b

/-- `MemRead(addr, n)` (R16): the bytes at addresses `addr` to `addr + n - 1`. -/
def Memory.readBytes (m : Memory) (addr : Nat) : Nat → List Byte
  | 0 => []
  | n + 1 => m.read addr :: m.readBytes (addr + 1) n

/-- `MemWrite(addr, n, bytes)` (R16), the bytes at addresses from `addr` on. -/
def Memory.writeBytes (m : Memory) (addr : Nat) : List Byte → Memory
  | [] => m
  | b :: bs => (m.write addr b).writeBytes (addr + 1) bs

/-- A run of writes of one command, in the order its pseudocode gives (20_memory.md R71). -/
def Memory.writeChunks (m : Memory) (chunks : List (Nat × List Byte)) : Memory :=
  chunks.foldl (fun m c => m.writeBytes c.1 c.2) m

/-- Every address of `m` is at least `lo`, they rise strictly, all lie below 2^32 and no byte 0 is listed. -/
def Memory.wfFrom (lo : Nat) : Memory → Bool
  | [] => true
  | (k, x) :: m => decide (lo ≤ k) && decide (k < 2 ^ 32) && decide (x ≠ 0) && Memory.wfFrom (k + 1) m

/-- The canonical form of a data memory over [0, 2^32) (R60): equal memories are equal lists. -/
def Memory.wf (m : Memory) : Bool := Memory.wfFrom 0 m

/-! ### Admission -/

/-- `MEM_ADMIT(a)` (R61): some admitted region holds address `a`. -/
def memAdmit (regions : List Region) (a : Nat) : Bool :=
  regions.any fun r => decide (r.base ≤ a) && decide (a < r.base + r.size)

/-- Every address in [lo, hi) lies in some region: what a region does not hold of it, below and above, the others do. -/
def covered (lo hi : Nat) : List Region → Bool
  | [] => decide (hi ≤ lo)
  | r :: rs =>
    if hi ≤ lo then true
    else covered lo (min hi r.base) rs && covered (max lo (r.base + r.size)) hi rs

/-- `Admit(addr, n)` (R16): the range does not pass 2^32 and `MEM_ADMIT` holds for each of its bytes. -/
def State.admits (s : State) (addr n : Nat) : Bool :=
  decide (addr + n ≤ 2 ^ 32) && covered addr (addr + n) s.inst.admitted

/-- The number of lanes `W` of the instance (R9). -/
def State.lanesOf (s : State) : Nat := s.inst.width.lanes

/-- The `W` ranges of 4 bytes at `base + stride · i` are all admitted (41_backend_transpose.md R170, R171). -/
def State.admitLanes (s : State) (base stride : Nat) : Bool :=
  (List.range s.lanesOf).all fun i => s.admits (base + stride * i) 4

/-! ### Registers -/

/-- Read `V[k]` (R16). -/
def State.readV (s : State) (k : Reg) : VectorWord := s.v[k.val]

/-- The written flag `Vw[k]` (R30). -/
def State.written (s : State) (k : Reg) : Bool := s.vw[k.val]

/-- `V[k] <- x`, which sets `Vw[k]` (R16, R30). -/
def State.writeV (s : State) (k : Reg) (x : VectorWord) : State :=
  { s with v := s.v.set k.val x, vw := s.vw.set k.val true }

/-- The SHA-256 HashState and status (R32, R33). -/
def State.putSha (s : State) (h : Hash8 VectorWord) (st : EngineStatus) : State :=
  { s with hs := h, sts := st }

/-- The RIPEMD-160 HashState and status (R33, R34). -/
def State.putRmd (s : State) (h : Hash5 VectorWord) (st : EngineStatus) : State :=
  { s with hr := h, str := st }

/-- The data memory after a command's writes. -/
def State.putMem (s : State) (m : Memory) : State := { s with mem := m }

/-! ### The command sequence, and taking a fault -/

/-- `pc <- pc + len` modulo 2^32 (R31): the packet's `len` words are consumed. -/
def State.retire (s : State) (len : Nat) : State :=
  { s with pc := s.pc + BitVec.ofNat 32 len, cmds := s.cmds.drop len }

/-- The header word `hdr` at `pc` (R98). With no word left no command executes, and this is 0. -/
def State.header (s : State) : Word := s.cmds.headD 0

/-- Fault entry (R304): exactly STATUS, FAULT_CMD, FAULT_PC and FAULT_ADDR are written; `pc` stays at the header. -/
def State.takeFault (s : State) (c : Cause) (addr : Word) : State :=
  { s with status := statusWord c, faultCmd := s.header, faultPc := s.pc, faultAddr := addr }

/-- `raise Fault(cause, addr)` (R16): the command ends with the fault taken, a next state (log 9). -/
def State.raise (s : State) (c : Cause) (addr : Word) : Result := .next (s.takeFault c addr)

/-- While STATUS.FAULT = 1 the engine is halted (R306). -/
def State.halted (s : State) : Bool := faultFlag s.status

end Sys2Proof.Machine
end

