-- ==== Sys2Proof/Machine/Operands.lean ====
section
/-! DEFINITION. The primitives of 00_scope.md R14 and R15 on words and bytes, VectorWords by lane (R13, R16), and the
layout of blocks and digest buffers (20_memory.md R68 to R70). `x +32 y`, `xor`, `and`, `or` and `not` are `BitVec`'s
own `+`, `^^^`, `&&&`, `|||` and `~~~`. -/

namespace Sys2Proof.Machine

/-! ### Shifts and rotates (R14) -/

/-- `shl32(x, n)`, for `n` below 32. -/
def shl32 (x : Word) (n : Nat) : Word := x <<< n

/-- `shr32(x, n)`, logical, for `n` below 32. -/
def shr32 (x : Word) (n : Nat) : Word := x >>> n

/-- `rotl32(x, n)` in the composed form, for `n` in 1..31. -/
def rotl32 (x : Word) (n : Nat) : Word := shl32 x n ||| shr32 x (32 - n)

/-- `rotr32(x, n) = rotl32(x, 32 - n)`, for `n` in 1..31. -/
def rotr32 (x : Word) (n : Nat) : Word := rotl32 x (32 - n)

/-! ### Byte order (R15) -/

/-- The word of four bytes, the first most significant. -/
def be32 (b0 b1 b2 b3 : Byte) : Word :=
  b0.setWidth 32 <<< 24 ||| b1.setWidth 32 <<< 16 ||| b2.setWidth 32 <<< 8 ||| b3.setWidth 32

/-- The word of four bytes, the first least significant. -/
def le32 (b0 b1 b2 b3 : Byte) : Word :=
  b3.setWidth 32 <<< 24 ||| b2.setWidth 32 <<< 16 ||| b1.setWidth 32 <<< 8 ||| b0.setWidth 32

/-- `enc_be32(x)`. -/
def encBe32 (x : Word) : List Byte :=
  [x.extractLsb' 24 8, x.extractLsb' 16 8, x.extractLsb' 8 8, x.extractLsb' 0 8]

/-- `enc_le32(x)`. -/
def encLe32 (x : Word) : List Byte :=
  [x.extractLsb' 0 8, x.extractLsb' 8 8, x.extractLsb' 16 8, x.extractLsb' 24 8]

/-- `dec(bo, bytes)` of four bytes. -/
def decWord : ByteOrder → Byte → Byte → Byte → Byte → Word
  | .be => be32
  | .le => le32

/-- `enc(bo, x)`. -/
def encWord : ByteOrder → Word → List Byte
  | .be => encBe32
  | .le => encLe32

/-- The words of a byte list, four bytes each: message word `t` is the 4 bytes at offset `4·t` (20_memory.md R68). -/
def wordsOf (bo : ByteOrder) : List Byte → List Word
  | b0 :: b1 :: b2 :: b3 :: bs => decWord bo b0 b1 b2 b3 :: wordsOf bo bs
  | _ => []

/-- `dec(bo, MemRead(addr, 4))` (R16). -/
def Memory.readWord (m : Memory) (bo : ByteOrder) (addr : Nat) : Word :=
  decWord bo (m.read addr) (m.read (addr + 1)) (m.read (addr + 2)) (m.read (addr + 3))

/-! ### Lanes (R13, R16) -/

/-- `x.lane[i]`; only lanes below W are ever asked for in a state `State.Inv` admits (log 18). -/
def lane (x : VectorWord) (i : Nat) : Word := x.getD i 0

/-- `lanes(f)`: the VectorWord whose lane `i` is `f i`, for `i` in [0, w) (R16). -/
def lanes (w : Nat) (f : Nat → Word) : VectorWord := (List.range w).map f

/-- Apply `f` to each of the eight. -/
def Hash8.map {α β : Type} (f : α → β) (x : Hash8 α) : Hash8 β :=
  ⟨f x.a, f x.b, f x.c, f x.d, f x.e, f x.f, f x.g, f x.h⟩

/-- The eight in index order, `HS[0] = a` to `HS[7] = h` (R32). -/
def Hash8.toList {α : Type} (x : Hash8 α) : List α := [x.a, x.b, x.c, x.d, x.e, x.f, x.g, x.h]

/-- Lane `i` of a HashState: that lane's chaining value (R32). -/
def Hash8.lane (x : Hash8 VectorWord) (i : Nat) : Hash8 Word := x.map fun y => Sys2Proof.Machine.lane y i

/-- The HashState whose lane `i` is the `i`-th of the lanes' chaining values. -/
def Hash8.ofLanes (l : List (Hash8 Word)) : Hash8 VectorWord :=
  ⟨l.map (·.a), l.map (·.b), l.map (·.c), l.map (·.d), l.map (·.e), l.map (·.f), l.map (·.g), l.map (·.h)⟩

/-- Apply `f` to each of the five. -/
def Hash5.map {α β : Type} (f : α → β) (x : Hash5 α) : Hash5 β :=
  ⟨f x.a, f x.b, f x.c, f x.d, f x.e⟩

/-- The five in index order, `HR[0] = a` to `HR[4] = e` (R34). -/
def Hash5.toList {α : Type} (x : Hash5 α) : List α := [x.a, x.b, x.c, x.d, x.e]

/-- Lane `i` of a HashState: that lane's chaining value (R34). -/
def Hash5.lane (x : Hash5 VectorWord) (i : Nat) : Hash5 Word := x.map fun y => Sys2Proof.Machine.lane y i

/-- The HashState whose lane `i` is the `i`-th of the lanes' chaining values. -/
def Hash5.ofLanes (l : List (Hash5 Word)) : Hash5 VectorWord :=
  ⟨l.map (·.a), l.map (·.b), l.map (·.c), l.map (·.d), l.map (·.e)⟩

/-! ### Buffer layouts -/

/-- Where lane `i`'s block of round `r` starts in a trunk at `t` of a `w`-lane instance: `t + 64·(w·r + i)` (R69). -/
def trunkBlock (t w r i : Nat) : Nat := t + 64 * (w * r + i)

/-- The writes of a SAVE: lane `i`'s word at `addr + stride · i` (41_backend_transpose.md R171). -/
def saveChunks (bo : ByteOrder) (w addr stride : Nat) (x : VectorWord) : List (Nat × List Byte) :=
  (List.range w).map fun i => (addr + stride * i, encWord bo (lane x i))

/-- The writes of an engine save: word `j` of lane `i`'s record of `size` bytes at `out + size·i + 4·j`, for `j` and
then for `i` (R70; 42_sha256.md R211; 43_ripemd160.md R262). -/
def digestChunks (bo : ByteOrder) (w out size : Nat) (words : List VectorWord) : List (Nat × List Byte) :=
  words.zipIdx.flatMap fun p => saveChunks bo w (out + 4 * p.2) size p.1

end Sys2Proof.Machine
end

