-- ==== Sys2Proof/Machine/Backend.lean ====
section
/-! DEFINITION. The backend lane-parallel primitives (40_backend_alu.md): MIRROR, ADD, XOR, OR, AND, ANDN, SHL, SHR, ROTL.
Each is one line over the operand discipline of R131. -/

namespace Sys2Proof.Machine

/-- A two-source command (R131): `Vw[a]`, then `Vw[b]`, must be 1; both sources are read before `V[d]` is written. -/
def aluTwo (d a b : Reg) (f : Word → Word → Word) (s : State) : Result :=
  if s.written a = false then s.raise .unwritten 0
  else if s.written b = false then s.raise .unwritten 0
  else
    .next ((s.writeV d
      (lanes s.lanesOf fun i => f (lane (s.readV a) i) (lane (s.readV b) i))).retire 1)

/-- A one-source command (R131): `Vw[a]` must be 1; the source is read before `V[d]` is written. -/
def aluOne (d a : Reg) (f : Word → Word) (s : State) : Result :=
  if s.written a = false then s.raise .unwritten 0
  else .next ((s.writeV d (lanes s.lanesOf fun i => f (lane (s.readV a) i))).retire 1)

/-- MIRROR: every lane of `V[d]` becomes `imm` (R133). -/
def execMirror (d : Reg) (imm : Word) (s : State) : Result :=
  .next ((s.writeV d (lanes s.lanesOf fun _ => imm)).retire 2)

/-- ADD: per-lane sum modulo 2^32 (R134). -/
def execAdd (d a b : Reg) (s : State) : Result := aluTwo d a b (fun x y => x + y) s

/-- XOR: per-lane exclusive or (R135). -/
def execXor (d a b : Reg) (s : State) : Result := aluTwo d a b (fun x y => x ^^^ y) s

/-- OR: per-lane inclusive or (R136). -/
def execOr (d a b : Reg) (s : State) : Result := aluTwo d a b (fun x y => x ||| y) s

/-- AND: per-lane and (R137). -/
def execAnd (d a b : Reg) (s : State) : Result := aluTwo d a b (fun x y => x &&& y) s

/-- ANDN: per-lane `(not a) and b`; the first source is the complemented one (R138, the spec's decision D9). -/
def execAndn (d a b : Reg) (s : State) : Result := aluTwo d a b (fun x y => ~~~x &&& y) s

/-- SHL: per-lane logical shift left by `n` in 0..31 (R139). -/
def execShl (d a : Reg) (n : BitVec 5) (s : State) : Result := aluOne d a (fun x => shl32 x n.toNat) s

/-- SHR: per-lane logical shift right by `n` in 0..31 (R140). -/
def execShr (d a : Reg) (n : BitVec 5) (s : State) : Result := aluOne d a (fun x => shr32 x n.toNat) s

/-- ROTL: per-lane rotate left by `n` in 1..31 (R141). `n = 0` never leaves the decoder; as a term it is ILLEGAL here
as there (30_encoding.md R95; log 11). -/
def execRotl (d a : Reg) (n : BitVec 5) (s : State) : Result :=
  if n = 0 then s.raise .illegal 0 else aluOne d a (fun x => rotl32 x n.toNat) s

end Sys2Proof.Machine
end

