-- ==== Sys2Proof/Machine/Engine.lean ====
section
/-! DEFINITION. What the BLOCK, SAVE and TRUNK commands of the two hash engines share: the status and admission checks in
the order of 60_exceptions.md R307, and a trunk's loop over its round-groups. `effect` is what the command
does to the state when its checks pass, but for `pc`. -/

namespace Sys2Proof.Machine

/-- A BLOCK command (42_sha256.md R210, 43_ripemd160.md R261): UNWRITTEN in UNINIT, SEQUENCE in FINAL, ACCESS when the
64·W bytes of the round-group are not all admitted. -/
def engineBlock (st : EngineStatus) (addr : Word) (effect : State → State) (s : State) : Result :=
  match st with
  | .uninit => s.raise .unwritten 0
  | .final => s.raise .sequence 0
  | .active =>
    if s.admits addr.toNat (64 * s.lanesOf) then .next ((effect s).retire 2) else s.raise .access addr

/-- A SAVE command of an engine with records of `size` bytes (R211, R262): UNWRITTEN in UNINIT, ACCESS when the digest
buffer is not all admitted; legal in ACTIVE and in FINAL. -/
def engineSave (st : EngineStatus) (out : Word) (size : Nat) (effect : State → State) (s : State) : Result :=
  match st with
  | .uninit => s.raise .unwritten 0
  | .active =>
    if s.admits out.toNat (size * s.lanesOf) then .next ((effect s).retire 2) else s.raise .access out
  | .final =>
    if s.admits out.toNat (size * s.lanesOf) then .next ((effect s).retire 2) else s.raise .access out

/-- A TRUNK command of an engine with records of `size` bytes (R212, R213, R263): the input range, then the output
range, must be admitted; legal in every status. The input length is exact, without wrap. -/
def engineTrunk (out inp count : Word) (size : Nat) (effect : State → State) (s : State) : Result :=
  if s.admits inp.toNat (64 * s.lanesOf * count.toNat) then
    if s.admits out.toNat (size * s.lanesOf) then .next ((effect s).retire 4) else s.raise .access out
  else s.raise .access inp

/-- Rounds 0 to `n` - 1 in order: `f (n - 1) (… (f 1 (f 0 h)))`. -/
def rounds {α : Type} (f : Nat → α → α) : Nat → α → α
  | 0, h => h
  | n + 1, h => f n (rounds f n h)

end Sys2Proof.Machine
end

