-- ==== Sys2Proof/Machine/Ripemd160.lean ====
section
/-! DEFINITION. The RIPEMD-160 engine (43_ripemd160.md): the per-lane compression function (R250 to R259) and the commands
RMD_INIT, RMD_BLOCK, RMD_SAVE and RMD_TRUNK (R260 to R264). Words are little-endian (R250). -/

namespace Sys2Proof.Machine

/-- `IV160`, `a` to `e` (R251). -/
def iv160 : Hash5 Word :=
  { a := 0x67452301, b := 0xEFCDAB89, c := 0x98BADCFE, d := 0x10325476, e := 0xC3D2E1F0 }

/-- `f1` (R252). -/
def rmdF1 (x y z : Word) : Word := x ^^^ y ^^^ z

/-- `f2` (R252). -/
def rmdF2 (x y z : Word) : Word := (x &&& y) ||| (~~~x &&& z)

/-- `f3` (R252). -/
def rmdF3 (x y z : Word) : Word := (x ||| ~~~y) ^^^ z

/-- `f4` (R252). -/
def rmdF4 (x y z : Word) : Word := (x &&& z) ||| (y &&& ~~~z)

/-- `f5` (R252). -/
def rmdF5 (x y z : Word) : Word := x ^^^ (y ||| ~~~z)

/-- What one line uses in one stage of 16 rounds (R253 to R255): its function, its constant, and for each round of the
stage the message-word index and the rotation amount. -/
structure RmdStage where
  f : Word → Word → Word → Word
  k : Word
  indices : List Nat
  amounts : List Nat

/-- The left line, stages 0 to 4: f1 to f5 with `KL`, `rL` and `sL` (R253, R254, R255). -/
def leftLine : List RmdStage :=
  [{ f := rmdF1, k := 0x00000000
     indices := [0, 1, 2, 3, 4, 5, 6, 7, 8, 9, 10, 11, 12, 13, 14, 15]
     amounts := [11, 14, 15, 12, 5, 8, 7, 9, 11, 13, 14, 15, 6, 7, 9, 8] },
   { f := rmdF2, k := 0x5A827999
     indices := [7, 4, 13, 1, 10, 6, 15, 3, 12, 0, 9, 5, 2, 14, 11, 8]
     amounts := [7, 6, 8, 13, 11, 9, 7, 15, 7, 12, 15, 9, 11, 7, 13, 12] },
   { f := rmdF3, k := 0x6ED9EBA1
     indices := [3, 10, 14, 4, 9, 15, 8, 1, 2, 7, 0, 6, 13, 11, 5, 12]
     amounts := [11, 13, 6, 7, 14, 9, 13, 15, 14, 8, 13, 6, 5, 12, 7, 5] },
   { f := rmdF4, k := 0x8F1BBCDC
     indices := [1, 9, 11, 10, 0, 8, 12, 4, 13, 3, 7, 15, 14, 5, 6, 2]
     amounts := [11, 12, 14, 15, 14, 15, 9, 8, 9, 14, 5, 6, 8, 6, 5, 12] },
   { f := rmdF5, k := 0xA953FD4E
     indices := [4, 0, 5, 9, 7, 12, 2, 10, 14, 1, 3, 8, 11, 6, 15, 13]
     amounts := [9, 15, 5, 11, 6, 8, 13, 12, 5, 12, 13, 14, 11, 8, 5, 6] }]

/-- The right line, stages 0 to 4: f5 to f1 with `KR`, `rR` and `sR` (R253, R254, R255). -/
def rightLine : List RmdStage :=
  [{ f := rmdF5, k := 0x50A28BE6
     indices := [5, 14, 7, 0, 9, 2, 11, 4, 13, 6, 15, 8, 1, 10, 3, 12]
     amounts := [8, 9, 9, 11, 13, 15, 15, 5, 7, 7, 8, 11, 14, 14, 12, 6] },
   { f := rmdF4, k := 0x5C4DD124
     indices := [6, 11, 3, 7, 0, 13, 5, 10, 14, 15, 8, 12, 4, 9, 1, 2]
     amounts := [9, 13, 15, 7, 12, 8, 9, 11, 7, 7, 12, 7, 6, 15, 13, 11] },
   { f := rmdF3, k := 0x6D703EF3
     indices := [15, 5, 1, 3, 7, 14, 6, 9, 11, 8, 12, 2, 10, 0, 4, 13]
     amounts := [9, 7, 15, 11, 8, 6, 6, 14, 12, 13, 5, 14, 13, 13, 7, 5] },
   { f := rmdF2, k := 0x7A6D76E9
     indices := [8, 6, 4, 1, 3, 11, 15, 0, 5, 12, 2, 13, 9, 7, 10, 14]
     amounts := [15, 5, 8, 11, 14, 14, 6, 14, 6, 9, 12, 9, 12, 5, 15, 8] },
   { f := rmdF1, k := 0x00000000
     indices := [12, 15, 10, 4, 1, 5, 8, 7, 6, 2, 13, 14, 0, 3, 9, 11]
     amounts := [8, 5, 12, 9, 12, 5, 14, 6, 8, 13, 6, 5, 15, 13, 11, 11] }]

/-- One round of one line with function `f`, word `x`, constant `k` and rotation `n` (R256). -/
def rmdRound (f : Word → Word → Word → Word) (x k : Word) (n : Nat) (r : Hash5 Word) : Hash5 Word :=
  { a := r.e, b := rotl32 (r.a + f r.b r.c r.d + x + k) n + r.e, c := r.b, d := rotl32 r.c 10, e := r.d }

/-- The rounds of one stage on the message words `xs`, in order (R256, R257). -/
def rmdStage (f : Word → Word → Word → Word) (k : Word) (xs : List Word) :
    List Nat → List Nat → Hash5 Word → Hash5 Word
  | ix :: ixs, n :: ns, r => rmdStage f k xs ixs ns (rmdRound f (xs.getD ix 0) k n r)
  | _, _, r => r

/-- The 80 rounds of one line on the message words `xs` (R257). -/
def rmdLine (stages : List RmdStage) (xs : List Word) (r : Hash5 Word) : Hash5 Word :=
  stages.foldl (fun r st => rmdStage st.f st.k xs st.indices st.amounts r) r

/-- The cross-mix of the pre-block value with the two lines (R258). -/
def rmdCrossMix (x l r : Hash5 Word) : Hash5 Word :=
  { a := x.b + l.c + r.d, b := x.c + l.d + r.e, c := x.d + l.e + r.a, d := x.e + l.a + r.b, e := x.a + l.b + r.c }

/-- `RMD160_COMPRESS(H, blk)`, the block given as its 64 bytes (R259). -/
def rmdCompress (x : Hash5 Word) (blk : List Byte) : Hash5 Word :=
  rmdCrossMix x (rmdLine leftLine (wordsOf .le blk) x) (rmdLine rightLine (wordsOf .le blk) x)

/-- `lanes(i => IV160[j])` for each `j` (R260). -/
def rmdIvLanes (w : Nat) : Hash5 VectorWord := iv160.map fun x => lanes w fun _ => x

/-- The HashState after one round-group: lane `i` is compressed with the block at `base + 64·i` (R261). -/
def rmdGroup (w : Nat) (m : Memory) (base : Nat) (x : Hash5 VectorWord) : Hash5 VectorWord :=
  Hash5.ofLanes ((List.range w).map fun i => rmdCompress (x.lane i) (m.readBytes (base + 64 * i) 64))

/-- The HashState after a trunk's `count` round-groups, from the IV; round `r`'s starts at `inp + 64·W·r` (R263). -/
def rmdTrunkState (w : Nat) (m : Memory) (inp count : Nat) : Hash5 VectorWord :=
  rounds (fun r x => rmdGroup w m (inp + 64 * w * r) x) count (rmdIvLanes w)

/-- The writes of RMD_SAVE and RMD_TRUNK: 20-byte little-endian records (R262). -/
def rmdDigestChunks (w out : Nat) (x : Hash5 VectorWord) : List (Nat × List Byte) :=
  digestChunks .le w out 20 x.toList

/-- Write the W digests of `x` at `out`; `x` becomes the HashState and STR becomes FINAL (R262). -/
def rmdFinish (out : Nat) (x : Hash5 VectorWord) (s : State) : State :=
  (s.putMem (s.mem.writeChunks (rmdDigestChunks s.lanesOf out x))).putRmd x .final

/-- RMD_INIT: `HR` becomes the IV in every lane; STR becomes ACTIVE (R260). -/
def execRmdInit (s : State) : Result :=
  .next ((s.putRmd (rmdIvLanes s.lanesOf) .active).retire 1)

/-- RMD_BLOCK: compress the round-group at `addr`; STR stays ACTIVE (R261). -/
def execRmdBlock (addr : Word) (s : State) : Result :=
  engineBlock s.str addr (fun s => s.putRmd (rmdGroup s.lanesOf s.mem addr.toNat s.hr) .active) s

/-- RMD_SAVE: write the W digests at `out`; STR becomes FINAL, `HR` does not change (R262). -/
def execRmdSave (out : Word) (s : State) : Result :=
  engineSave s.str out 20 (fun s => rmdFinish out.toNat s.hr s) s

/-- RMD_TRUNK: hash `count` round-groups from the IV, write the digests, STR becomes FINAL (R263).
Every read comes before the first write. -/
def execRmdTrunk (out inp count : Word) (s : State) : Result :=
  engineTrunk out inp count 20
    (fun s => rmdFinish out.toNat (rmdTrunkState s.lanesOf s.mem inp.toNat count.toNat) s) s

end Sys2Proof.Machine
end

