-- ==== Sys2Proof/Machine/Sha256.lean ====
section
/-! DEFINITION. The SHA-256 engine (42_sha256.md): the per-lane compression function (R200 to R207) and the commands
SHA_INIT, SHA_BLOCK, SHA_SAVE and SHA_TRUNK (R208 to R214). Words are big-endian (R200). -/

namespace Sys2Proof.Machine

/-- `IV256`, `a` to `h` (R201). -/
def iv256 : Hash8 Word :=
  { a := 0x6a09e667, b := 0xbb67ae85, c := 0x3c6ef372, d := 0xa54ff53a
    e := 0x510e527f, f := 0x9b05688c, g := 0x1f83d9ab, h := 0x5be0cd19 }

/-- The round constants `K[0..63]`, eight to a row as in the table of R202. -/
def shaK : List Word :=
  [0x428a2f98, 0x71374491, 0xb5c0fbcf, 0xe9b5dba5, 0x3956c25b, 0x59f111f1, 0x923f82a4, 0xab1c5ed5]
  ++ [0xd807aa98, 0x12835b01, 0x243185be, 0x550c7dc3, 0x72be5d74, 0x80deb1fe, 0x9bdc06a7, 0xc19bf174]
  ++ [0xe49b69c1, 0xefbe4786, 0x0fc19dc6, 0x240ca1cc, 0x2de92c6f, 0x4a7484aa, 0x5cb0a9dc, 0x76f988da]
  ++ [0x983e5152, 0xa831c66d, 0xb00327c8, 0xbf597fc7, 0xc6e00bf3, 0xd5a79147, 0x06ca6351, 0x14292967]
  ++ [0x27b70a85, 0x2e1b2138, 0x4d2c6dfc, 0x53380d13, 0x650a7354, 0x766a0abb, 0x81c2c92e, 0x92722c85]
  ++ [0xa2bfe8a1, 0xa81a664b, 0xc24b8b70, 0xc76c51a3, 0xd192e819, 0xd6990624, 0xf40e3585, 0x106aa070]
  ++ [0x19a4c116, 0x1e376c08, 0x2748774c, 0x34b0bcb5, 0x391c0cb3, 0x4ed8aa4a, 0x5b9cca4f, 0x682e6ff3]
  ++ [0x748f82ee, 0x78a5636f, 0x84c87814, 0x8cc70208, 0x90befffa, 0xa4506ceb, 0xbef9a3f7, 0xc67178f2]

/-- `σ0` (R203). -/
def smallSigma0 (x : Word) : Word := rotr32 x 7 ^^^ rotr32 x 18 ^^^ shr32 x 3

/-- `σ1` (R203). -/
def smallSigma1 (x : Word) : Word := rotr32 x 17 ^^^ rotr32 x 19 ^^^ shr32 x 10

/-- `Σ0` (R203). -/
def bigSigma0 (x : Word) : Word := rotr32 x 2 ^^^ rotr32 x 13 ^^^ rotr32 x 22

/-- `Σ1` (R203). -/
def bigSigma1 (x : Word) : Word := rotr32 x 6 ^^^ rotr32 x 11 ^^^ rotr32 x 25

/-- `Ch` (R203). -/
def shaCh (e f g : Word) : Word := g ^^^ (e &&& (f ^^^ g))

/-- `Maj` (R203). -/
def shaMaj (a b c : Word) : Word := (a &&& b) ||| (c &&& (a ||| b))

/-- The next schedule word, of the words so far with the newest first: `w[t-2]` stands at 1, `w[t-7]` at 6, `w[t-15]`
at 14 and `w[t-16]` at 15 (R204). -/
def nextScheduleWord (newest : List Word) : Word :=
  newest.getD 15 0 + smallSigma0 (newest.getD 14 0) + newest.getD 6 0 + smallSigma1 (newest.getD 1 0)

/-- `n` more schedule words, the newest first. -/
def extendSchedule : Nat → List Word → List Word
  | 0, newest => newest
  | n + 1, newest => extendSchedule n (nextScheduleWord newest :: newest)

/-- The message schedule `w[0..63]` of a block's 16 words (R204). -/
def shaSchedule (block : List Word) : List Word := (extendSchedule 48 block.reverse).reverse

/-- One round with constant `k` and schedule word `w` (R205). -/
def shaRound (r : Hash8 Word) (k w : Word) : Hash8 Word :=
  let t1 := r.h + bigSigma1 r.e + shaCh r.e r.f r.g + k + w
  let t2 := bigSigma0 r.a + shaMaj r.a r.b r.c
  { a := t1 + t2, b := r.a, c := r.b, d := r.c, e := r.d + t1, f := r.e, g := r.f, h := r.g }

/-- The rounds of the constants `ks` with the schedule words `ws`, in order (R205). -/
def shaRounds : List Word → List Word → Hash8 Word → Hash8 Word
  | k :: ks, w :: ws, r => shaRounds ks ws (shaRound r k w)
  | _, _, r => r

/-- The feedback: pre-block value plus post-round registers, word for word (R206). -/
def shaFeedback (x r : Hash8 Word) : Hash8 Word :=
  { a := x.a + r.a, b := x.b + r.b, c := x.c + r.c, d := x.d + r.d
    e := x.e + r.e, f := x.f + r.f, g := x.g + r.g, h := x.h + r.h }

/-- `SHA256_COMPRESS(H, blk)`, the block given as its 64 bytes (R207). -/
def shaCompress (x : Hash8 Word) (blk : List Byte) : Hash8 Word :=
  shaFeedback x (shaRounds shaK (shaSchedule (wordsOf .be blk)) x)

/-- `lanes(i => IV256[j])` for each `j` (R209). -/
def shaIvLanes (w : Nat) : Hash8 VectorWord := iv256.map fun x => lanes w fun _ => x

/-- The HashState after one round-group: lane `i` is compressed with the block at `base + 64·i` (R208, R210). -/
def shaGroup (w : Nat) (m : Memory) (base : Nat) (x : Hash8 VectorWord) : Hash8 VectorWord :=
  Hash8.ofLanes ((List.range w).map fun i => shaCompress (x.lane i) (m.readBytes (base + 64 * i) 64))

/-- The HashState after a trunk's `count` round-groups, from the IV; round `r`'s starts at `inp + 64·W·r` (R213). -/
def shaTrunkState (w : Nat) (m : Memory) (inp count : Nat) : Hash8 VectorWord :=
  rounds (fun r x => shaGroup w m (inp + 64 * w * r) x) count (shaIvLanes w)

/-- The writes of SHA_SAVE and SHA_TRUNK: 32-byte big-endian records (R211). -/
def shaDigestChunks (w out : Nat) (x : Hash8 VectorWord) : List (Nat × List Byte) :=
  digestChunks .be w out 32 x.toList

/-- Write the W digests of `x` at `out`; `x` becomes the HashState and STS becomes FINAL (R211). -/
def shaFinish (out : Nat) (x : Hash8 VectorWord) (s : State) : State :=
  (s.putMem (s.mem.writeChunks (shaDigestChunks s.lanesOf out x))).putSha x .final

/-- SHA_INIT: `HS` becomes the IV in every lane; STS becomes ACTIVE (R209). -/
def execShaInit (s : State) : Result :=
  .next ((s.putSha (shaIvLanes s.lanesOf) .active).retire 1)

/-- SHA_BLOCK: compress the round-group at `addr`; STS stays ACTIVE (R210). -/
def execShaBlock (addr : Word) (s : State) : Result :=
  engineBlock s.sts addr (fun s => s.putSha (shaGroup s.lanesOf s.mem addr.toNat s.hs) .active) s

/-- SHA_SAVE: write the W digests at `out`; STS becomes FINAL, `HS` does not change (R211). -/
def execShaSave (out : Word) (s : State) : Result :=
  engineSave s.sts out 32 (fun s => shaFinish out.toNat s.hs s) s

/-- SHA_TRUNK: hash `count` round-groups from the IV, write the digests, STS becomes FINAL (R212, R213).
Every read comes before the first write. -/
def execShaTrunk (out inp count : Word) (s : State) : Result :=
  engineTrunk out inp count 32
    (fun s => shaFinish out.toNat (shaTrunkState s.lanesOf s.mem inp.toNat count.toNat) s) s

end Sys2Proof.Machine
end

