-- ==== Sys2Proof/Machine/Transpose.lean ====
section
/-! DEFINITION. The byte-buffer transpose (41_backend_transpose.md): LOAD gathers one word per lane at stride 64, SAVE
scatters one word per lane at the stride the command names. -/

namespace Sys2Proof.Machine

/-- LOAD: lane `i` of `V[v]` becomes the word at `addr + 64·i` in order `bo` (R170). -/
def execLoad (v : Reg) (bo : ByteOrder) (addr : Word) (s : State) : Result :=
  if s.admitLanes addr.toNat 64 then
    .next ((s.writeV v
      (lanes s.lanesOf fun i => s.mem.readWord bo (addr.toNat + 64 * i))).retire 2)
  else s.raise .access addr

/-- SAVE: lane `i` of `V[v]` is stored at `addr + rec·i` in order `bo` (R171). A record size below 4 never leaves the
decoder; as a term it is ILLEGAL here as there (30_encoding.md R97; log 11). -/
def execSave (v : Reg) (bo : ByteOrder) (recSize : BitVec 12) (addr : Word) (s : State) : Result :=
  if recSize.toNat < 4 then s.raise .illegal 0
  else if s.written v = false then s.raise .unwritten 0
  else if s.admitLanes addr.toNat recSize.toNat then
    .next ((s.putMem (s.mem.writeChunks
      (saveChunks bo s.lanesOf addr.toNat recSize.toNat (s.readV v)))).retire 2)
  else s.raise .access addr

end Sys2Proof.Machine
end

