-- ==== Sys2Proof/Machine/Dispatch.lean ====
section
/-! DEFINITION. One arm per command: the meaning each constructor of `Instr` has. -/

namespace Sys2Proof.Machine

def exec (i : Instr) (s : State) : Host.Outcome State Fault Refusal :=
  match i with
  -- 40_backend_alu.md
  | .mirror d imm => Sys2Proof.Machine.execMirror d imm s
  | .add d a b => Sys2Proof.Machine.execAdd d a b s
  | .xor d a b => Sys2Proof.Machine.execXor d a b s
  | .or d a b => Sys2Proof.Machine.execOr d a b s
  | .and d a b => Sys2Proof.Machine.execAnd d a b s
  | .andn d a b => Sys2Proof.Machine.execAndn d a b s
  | .shl d a n => Sys2Proof.Machine.execShl d a n s
  | .shr d a n => Sys2Proof.Machine.execShr d a n s
  | .rotl d a n => Sys2Proof.Machine.execRotl d a n s
  -- 41_backend_transpose.md
  | .load v bo addr => Sys2Proof.Machine.execLoad v bo addr s
  | .save v bo recSize addr => Sys2Proof.Machine.execSave v bo recSize addr s
  -- 42_sha256.md
  | .shaInit => Sys2Proof.Machine.execShaInit s
  | .shaBlock addr => Sys2Proof.Machine.execShaBlock addr s
  | .shaSave out => Sys2Proof.Machine.execShaSave out s
  | .shaTrunk out inp count => Sys2Proof.Machine.execShaTrunk out inp count s
  -- 43_ripemd160.md
  | .rmdInit => Sys2Proof.Machine.execRmdInit s
  | .rmdBlock addr => Sys2Proof.Machine.execRmdBlock addr s
  | .rmdSave out => Sys2Proof.Machine.execRmdSave out s
  | .rmdTrunk out inp count => Sys2Proof.Machine.execRmdTrunk out inp count s

end Sys2Proof.Machine
end

