-- ==== Sys2Proof/Machine/Fetch.lean ====
section
/-! DEFINITION. What the engine does next: nothing while halted (60_exceptions.md R306), nothing when no word is left
(70_reset_and_hazards.md R364; 60_exceptions.md R317), else the packet at `pc` (30_encoding.md R98). -/

namespace Sys2Proof.Machine

/-- What the front of the command sequence asks of the engine. -/
inductive Fetched where
  /-- STATUS.FAULT = 1: no command executes (R306). -/
  | halted
  /-- No word is left: the engine is idle and keeps its state (R317). -/
  | idle
  /-- A packet that raises this fault at decode (R98). -/
  | raises (c : Cause)
  /-- A command to execute. -/
  | command (i : Instr)
  deriving DecidableEq, Repr

/-- The engine's next action (R98, R306, R317). -/
def fetch (s : State) : Fetched :=
  if s.halted then .halted
  else
    match decode s.cmds with
    | .endOfSequence => .idle
    | .command i _ => .command i
    | .rejected why => .raises (rejectCause why)

/-- `s` with the words `ws` at the front of its command sequence in place of as many of its own words: the next packet
to fetch is theirs. -/
def placeWords (s : State) (ws : List Word) : State :=
  { s with cmds := ws ++ s.cmds.drop ws.length }

end Sys2Proof.Machine
end

