-- ==== Sys2Proof/Machine/Step.lean ====
section
/-! DEFINITION. One step of the engine is one command (70_reset_and_hazards.md R362). -/

namespace Sys2Proof.Machine

/-- A halted engine answers the fault `halted` (60_exceptions.md R306, R364; log 7); an idle engine keeps its state
(R317; log 8); a packet that does not decode takes its fault (30_encoding.md R98); any other executes. -/
def step (s : State) : Host.Outcome State Fault Refusal :=
  match fetch s with
  | .halted => .fault .halted
  | .idle => .next s
  | .raises c => s.raise c 0
  | .command i => exec i s

/-- `s` with the instruction whose bits are `w`, numbered as spec/opcode_table.json numbers them, where `step` fetches
its next command: the front of the command sequence. It stands for the host's writes to CMD (60_exceptions.md R320;
log 10). -/
def State.withFetchWord (s : State) (nbits w : Nat) : State := placeWords s (tableWords nbits w)

end Sys2Proof.Machine
end

