-- ==== Sys2Proof/Machine/Port.lean ====
section
/-! DEFINITION. The host interface of one instance (60_exceptions.md R320), as operations the host applies BETWEEN steps
(20_memory.md R63): the six host registers (10_state.md R36), data memory and reset. The host has no other move. -/

namespace Sys2Proof.Machine

/-- A host read of register `index` (R36 to R41): CMD reads 0, STATUS, CFG, FAULT_CMD, FAULT_PC, FAULT_ADDR at 1 to 5,
and 0 from index 6 on. A read changes nothing. -/
def portReadReg (s : State) (index : Nat) : Word :=
  match index with
  | 1 => s.status
  | 2 => cfgWord s.inst.width
  | 3 => s.faultCmd
  | 4 => s.faultPc
  | 5 => s.faultAddr
  | _ => 0

/-- A host write of register `index`: CMD appends the word to the command sequence, unless the engine is halted, which
discards it (R306, R320). Registers 1 to 5 are read-only (R36: a write changes nothing, DEDUCED, log 12); a write to
index 6 and above is ignored (R36). -/
def portWriteReg (s : State) (index : Nat) (w : Word) : State :=
  match index with
  | 0 => if s.halted then s else { s with cmds := s.cmds ++ [w] }
  | _ => s

/-- The host writes a whole packet, or any run of words, to CMD word by word (R320). -/
def portWriteCmd (s : State) (ws : List Word) : State := ws.foldl (fun s w => portWriteReg s 0 w) s

/-- The host reads any data byte (R320). -/
def portReadMem (s : State) (a : Nat) : Byte := s.mem.read a

/-- The host writes an admitted data byte; an address that is not admitted is no move of the host (R320). -/
def portWriteMem (s : State) (a : Nat) (b : Byte) : Option State :=
  if s.admits a 1 then some (s.putMem (s.mem.write a b)) else none

/-- Reset (70_reset_and_hazards.md R350): every piece of engine state takes its reset value, the command sequence is
emptied, and data memory keeps every byte (R351). It also leaves the halted state (R306). -/
def portReset (s : State) : State := State.afterReset s.inst s.mem

end Sys2Proof.Machine
end

