-- ==== Sys2Proof/Machine/System.lean ====
section
/-! DEFINITION. Several HVE instances over one data memory, and the host (20_memory.md R79; 60_exceptions.md R315, R320).
A schedule is a list of moves, one command or one host action each; every interleaving is one such list. -/

namespace Sys2Proof.Machine

/-- Instances, and the data memory they share. An engine's own `mem` field is not read: `System.view` replaces it. -/
structure System where
  engines : List State
  mem     : Memory
  deriving DecidableEq, Repr

/-- One move: instance `k` executes a command, or the host acts (R320). -/
inductive Move where
  | engine (k : Nat)
  | writeReg (k index : Nat) (w : Word)
  | writeMem (k a : Nat) (b : Byte)
  | reset (k : Nat)
  deriving DecidableEq, Repr

/-- Instance `k` over the shared memory. -/
def System.view (y : System) (k : Nat) : Option State :=
  match y.engines[k]? with
  | none => none
  | some s => some (s.putMem y.mem)

/-- Instance `k` becomes `s`, and the shared memory becomes what `s` holds. -/
def System.commit (y : System) (k : Nat) (s : State) : System :=
  { engines := y.engines.set k s, mem := s.mem }

/-- The state after a command of one instance, if it has one. -/
def nextOf : Result → Option State
  | .next s => some s
  | .fault _ => none
  | .refused _ => none

/-- The system after a move; none where the spec gives no such move: no instance `k`, a halted engine asked to execute,
a host write to an address that is not admitted. -/
def System.move (y : System) (mv : Move) : Option System :=
  match mv with
  | .engine k => (y.view k).bind fun s => (nextOf (step s)).map (y.commit k)
  | .writeReg k index w => (y.view k).map fun s => y.commit k (portWriteReg s index w)
  | .writeMem k a b => (y.view k).bind fun s => (portWriteMem s a b).map (y.commit k)
  | .reset k => (y.view k).map fun s => y.commit k (portReset s)

/-- The system after a schedule. -/
def System.run (y : System) : List Move → Option System
  | [] => some y
  | mv :: mvs => (y.move mv).bind fun y' => y'.run mvs

end Sys2Proof.Machine
end

