-- ==== Sys2Proof/Safety.lean ====
section
/-! DEFINITION. The terms statements are made in: the invariant of the machine, the two ends of a run
(70_reset_and_hazards.md R364), what a fault leaves, and the frames of commands. -/

namespace Sys2Proof.Machine

/-- The memory kept its canonical form and its addresses lie in [0, 2^32) (20_memory.md R60). -/
def State.memOk (s : State) : Bool := s.mem.wf

/-- A VectorWord holds W lanes (10_state.md R30). -/
def State.hasLanes (s : State) (x : VectorWord) : Bool := decide (x.length = s.lanesOf)

/-- The fault registers are as R37, R39, R40 and R41 give them: with FAULT = 0 all four are 0; with FAULT = 1 STATUS is a
cause of R301 and FAULT_PC the `pc` the engine stays at (R304), and FAULT_ADDR is 0 but for ACCESS. -/
def State.faultRegsOk (s : State) : Bool :=
  if s.status = 0 then decide (s.faultCmd = 0) && decide (s.faultPc = 0) && decide (s.faultAddr = 0)
  else
    decide (s.faultPc = s.pc) && decide (s.faultCmd = s.header) &&
      ((decide (s.faultAddr = 0) &&
          (decide (s.status = statusWord .illegal) || decide (s.status = statusWord .truncated) ||
            decide (s.status = statusWord .unwritten) || decide (s.status = statusWord .sequence)))
        || decide (s.status = statusWord .access))

/-- The invariant of the machine: every VectorWord of `V`, `HS` and `HR` has W lanes, the memory is canonical, and the
fault registers are as R37 to R41 give them. -/
def State.Inv (s : State) : Bool :=
  s.v.toList.all s.hasLanes && s.hs.toList.all s.hasLanes && s.hr.toList.all s.hasLanes
    && s.memOk && s.faultRegsOk

/-- The invariant of a system: the shared memory is canonical, and every instance over it has the invariant. -/
def System.Inv (y : System) : Bool := y.mem.wf && y.engines.all fun s => (s.putMem y.mem).Inv

/-- A run's end with every packet executed without fault (R364): no word is left and STATUS.FAULT = 0. -/
def State.completed (s : State) : Bool := s.cmds.isEmpty && !s.halted

/-- A run's end by a fault (R364): STATUS.FAULT = 1. -/
def State.faulted (s : State) : Bool := s.halted

/-! ### What a command leaves as it was -/

/-- `pc` and the command sequence after a packet of `len` words (10_state.md R31). -/
def Retired (len : Nat) (s t : State) : Prop :=
  t.pc = s.pc + BitVec.ofNat 32 len ∧ t.cmds = s.cmds.drop len

/-- The instance's parameters and the four fault registers are as they were. -/
def SameHostSide (s t : State) : Prop :=
  t.inst = s.inst ∧ t.status = s.status ∧ t.faultCmd = s.faultCmd ∧ t.faultPc = s.faultPc ∧
    t.faultAddr = s.faultAddr

/-- The SHA-256 engine is as it was. -/
def SameSha (s t : State) : Prop := t.hs = s.hs ∧ t.sts = s.sts

/-- The RIPEMD-160 engine is as it was. -/
def SameRmd (s t : State) : Prop := t.hr = s.hr ∧ t.str = s.str

/-- The vector register file is as it was, contents and written flags. -/
def SameVectors (s t : State) : Prop := ∀ k : Reg, t.readV k = s.readV k ∧ t.written k = s.written k

/-- Every byte of data memory reads as it did. -/
def SameBytes (s t : State) : Prop := ∀ a : Nat, t.mem.read a = s.mem.read a

/-- Only vector register `d`, `pc` and the command sequence may differ. -/
def RegisterFrame (d : Reg) (s t : State) : Prop :=
  SameHostSide s t ∧ SameSha s t ∧ SameRmd s t ∧ SameBytes s t ∧
    ∀ k : Reg, k ≠ d → t.readV k = s.readV k ∧ t.written k = s.written k

/-- Only the SHA-256 engine, memory, `pc` and the command sequence may differ. -/
def ShaFrame (s t : State) : Prop := SameHostSide s t ∧ SameVectors s t ∧ SameRmd s t

/-- Only the RIPEMD-160 engine, memory, `pc` and the command sequence may differ. -/
def RmdFrame (s t : State) : Prop := SameHostSide s t ∧ SameVectors s t ∧ SameSha s t

/-! ### Kinds of command -/

/-- The four parts of the command set (files 40 to 43). -/
inductive Family where
  | primitive | transpose | sha | rmd
  deriving DecidableEq, Repr

/-- The part a command belongs to. -/
def familyOf : Instr → Family
  | .mirror _ _ => .primitive
  | .add _ _ _ => .primitive
  | .xor _ _ _ => .primitive
  | .or _ _ _ => .primitive
  | .and _ _ _ => .primitive
  | .andn _ _ _ => .primitive
  | .shl _ _ _ => .primitive
  | .shr _ _ _ => .primitive
  | .rotl _ _ _ => .primitive
  | .load _ _ _ => .transpose
  | .save _ _ _ _ => .transpose
  | .shaInit => .sha
  | .shaBlock _ => .sha
  | .shaSave _ => .sha
  | .shaTrunk _ _ _ => .sha
  | .rmdInit => .rmd
  | .rmdBlock _ => .rmd
  | .rmdSave _ => .rmd
  | .rmdTrunk _ _ _ => .rmd

/-- The vector registers a command reads, in the order their written flags are checked (40 R131, 41 R171). -/
def sourcesOf : Instr → List Reg
  | .mirror _ _ => []
  | .add _ a b => [a, b]
  | .xor _ a b => [a, b]
  | .or _ a b => [a, b]
  | .and _ a b => [a, b]
  | .andn _ a b => [a, b]
  | .shl _ a _ => [a]
  | .shr _ a _ => [a]
  | .rotl _ a _ => [a]
  | .load _ _ _ => []
  | .save v _ _ _ => [v]
  | .shaInit => []
  | .shaBlock _ => []
  | .shaSave _ => []
  | .shaTrunk _ _ _ => []
  | .rmdInit => []
  | .rmdBlock _ => []
  | .rmdSave _ => []
  | .rmdTrunk _ _ _ => []

/-- The commands that write data memory (20_memory.md R60). -/
def storesMemory : Instr → Bool
  | .save _ _ _ _ => true
  | .shaSave _ => true
  | .shaTrunk _ _ _ => true
  | .rmdSave _ => true
  | .rmdTrunk _ _ _ => true
  | .mirror _ _ => false
  | .add _ _ _ => false
  | .xor _ _ _ => false
  | .or _ _ _ => false
  | .and _ _ _ => false
  | .andn _ _ _ => false
  | .shl _ _ _ => false
  | .shr _ _ _ => false
  | .rotl _ _ _ => false
  | .load _ _ _ => false
  | .shaInit => false
  | .shaBlock _ => false
  | .rmdInit => false
  | .rmdBlock _ => false

/-! ### The opcode table's own view of a header -/

/-- The `mask` of a command's row of spec/opcode_table.json. -/
def tableMask : Opcode → Word
  | .mirror => 0xFC1FFFFF
  | .add => 0xFC0007FF | .xor => 0xFC0007FF | .or => 0xFC0007FF | .and => 0xFC0007FF | .andn => 0xFC0007FF
  | .shl => 0xFC00F83F | .shr => 0xFC00F83F | .rotl => 0xFC00F83F
  | .load => 0xFC0FFFFF | .save => 0xFC0000FF
  | .shaInit => 0xFFFFFFFF | .shaBlock => 0xFFFFFFFF | .shaSave => 0xFFFFFFFF | .shaTrunk => 0xFFFFFFFF
  | .rmdInit => 0xFFFFFFFF | .rmdBlock => 0xFFFFFFFF | .rmdSave => 0xFFFFFFFF | .rmdTrunk => 0xFFFFFFFF

/-- The `match` of a command's row of spec/opcode_table.json. -/
def tableMatch : Opcode → Word
  | .mirror => 0x04000000
  | .add => 0x08000000 | .xor => 0x0C000000 | .or => 0x10000000 | .and => 0x14000000 | .andn => 0x18000000
  | .shl => 0x1C000000 | .shr => 0x20000000 | .rotl => 0x24000000
  | .load => 0x28000000 | .save => 0x2C000000
  | .shaInit => 0x40000000 | .shaBlock => 0x44000000 | .shaSave => 0x48000000 | .shaTrunk => 0x4C000000
  | .rmdInit => 0x50000000 | .rmdBlock => 0x54000000 | .rmdSave => 0x58000000 | .rmdTrunk => 0x5C000000

/-- A header meets its row: the fixed bits, and the row's constraint on ROTL's `n` and SAVE's `rec` (30 R95, R97). -/
def MeetsRow (op : Opcode) (hdr : Word) : Prop :=
  hdr &&& tableMask op = tableMatch op ∧ (op = .rotl → hdrN hdr ≠ 0) ∧ (op = .save → 4 ≤ (hdrRec hdr).toNat)

/-! ### Runs, digests, and states that look alike -/

/-- The commands of `is`, in order, each by its meaning: the first that does not answer a next state ends the run. -/
def execAll : List Instr → State → Result
  | [], s => .next s
  | i :: is, s =>
    match exec i s with
    | .next t => execAll is t
    | .fault r => .fault r
    | .refused r => .refused r

/-- Lane `i`'s SHA-256 chaining value over the `count` blocks of its message in the trunk at `inp` of a `w`-lane
instance, from the IV, each block where 20_memory.md R69 puts it. -/
def laneSha (m : Memory) (inp w i count : Nat) : Hash8 Word :=
  rounds (fun r x => shaCompress x (m.readBytes (trunkBlock inp w r i) 64)) count iv256

/-- Lane `i`'s RIPEMD-160 chaining value over its blocks, likewise. -/
def laneRmd (m : Memory) (inp w i count : Nat) : Hash5 Word :=
  rounds (fun r x => rmdCompress x (m.readBytes (trunkBlock inp w r i) 64)) count iv160

/-- The states agree on all a command may read: they may differ only in the contents of vector registers not yet
written and of HashStates in UNINIT (10_state.md R46). -/
def SameReadable (s u : State) : Prop :=
  u.inst = s.inst ∧ u.pc = s.pc ∧ u.cmds = s.cmds ∧ u.sts = s.sts ∧ u.str = s.str ∧ u.status = s.status ∧
    u.faultCmd = s.faultCmd ∧ u.faultPc = s.faultPc ∧ u.faultAddr = s.faultAddr ∧ u.mem = s.mem ∧
    (∀ k : Reg, u.written k = s.written k) ∧ (∀ k : Reg, s.written k = true → u.readV k = s.readV k) ∧
    (s.sts ≠ .uninit → u.hs = s.hs) ∧ (s.str ≠ .uninit → u.hr = s.hr)

/-- The states agree on all but data: vector register contents, HashStates and memory may differ (70 R360). -/
def SameControl (s u : State) : Prop :=
  u.inst = s.inst ∧ u.pc = s.pc ∧ u.cmds = s.cmds ∧ u.sts = s.sts ∧ u.str = s.str ∧ u.status = s.status ∧
    u.faultCmd = s.faultCmd ∧ u.faultPc = s.faultPc ∧ u.faultAddr = s.faultAddr ∧
    ∀ k : Reg, u.written k = s.written k

/-- The instance a move of a system concerns. -/
def Move.target : Move → Nat
  | .engine k => k
  | .writeReg k _ _ => k
  | .writeMem k _ _ => k
  | .reset k => k

end Sys2Proof.Machine
end

