-- ==== Sys2Proof/Certificates/Slice0/Obligations.lean ====
section
/-! DEFINITION. The statements for the provers. Each docstring names the rules of spec/ the statement formalises. -/

open Sys2Proof Sys2Proof.Machine

/-! ### Encoding (30_encoding.md) -/

/-- R98 against R91, R93, R94: the decoder reads back every well-formed command from its packet, with every operand at
every value the encoding admits, and leaves the words after it. -/
def Obligations.DecodeInvertsEncode : Prop :=
  ∀ (i : Instr) (rest : List Word), i.wf = true → decode (encode i ++ rest) = .command i rest

/-- R98, R99: no bit of an accepted packet is dropped. Whatever the decoder accepts is the packet of the well-formed
command it answers, followed by the rest. -/
def Obligations.EncodeInvertsDecode : Prop :=
  ∀ (ws : List Word) (i : Instr) (rest : List Word),
    decode ws = .command i rest → i.wf = true ∧ ws = encode i ++ rest

/-- opcode_table.json: a packet is accepted exactly when its header meets some row's mask, match and constraint and its
words are all there; the command is that row's. -/
def Obligations.AcceptedPacketsMatchOpcodeTable : Prop :=
  ∀ (hdr : Word) (args : List Word) (op : Opcode),
    (∃ i rest, decode (hdr :: args) = .command i rest ∧ i.opcode = op) ↔
      (MeetsRow op hdr ∧ packetLength op ≤ args.length + 1)

/-- 95_test_vectors.md T6: words the spec writes out decode as it says. -/
def Obligations.SpecWordsDecode : Prop :=
  decode [0x04200000, 0xFFFFFFFF] = .command (.mirror 1 0xFFFFFFFF) [] ∧
  decode [0x08611000] = .command (.add 3 1 2) [] ∧
  decode [0x18C51800] = .command (.andn 6 5 3) [] ∧
  decode [0x20A207C0] = .command (.shr 5 2 31) [] ∧
  decode [0x24830200] = .command (.rotl 4 3 8) [] ∧
  decode [0x28500000, 0x100] = .command (.load 2 .le 0x100) [] ∧
  decode [0x2C402000, 0x200] = .command (.save 2 .be 32 0x200) [] ∧
  decode [0x4C000000, 0x100, 0x400, 1] = .command (.shaTrunk 0x100 0x400 1) [] ∧
  decode [0x58000000, 0x120] = .command (.rmdSave 0x120) []

/-- R99, and R301's ILLEGAL: a reserved opcode raises ILLEGAL; a whole packet whose header does not meet its opcode's row
raises ILLEGAL; the decoder rejects nothing else of a whole packet. -/
def Obligations.ReservedEncodingsRaiseIllegal : Prop :=
  ∀ (s : State) (hdr : Word) (args : List Word), s.halted = false → s.cmds = hdr :: args →
    (((hdrOp hdr).toNat = 0 ∨ (0x0C ≤ (hdrOp hdr).toNat ∧ (hdrOp hdr).toNat ≤ 0x0F) ∨
        0x18 ≤ (hdrOp hdr).toNat) → step s = .next (s.takeFault .illegal 0)) ∧
    (∀ op : Opcode, hdrOp hdr = opcodeBits op → packetLength op ≤ args.length + 1 →
      (¬MeetsRow op hdr → step s = .next (s.takeFault .illegal 0)) ∧
      (MeetsRow op hdr → ∃ i rest, decode s.cmds = .command i rest ∧ step s = exec i s))

/-- R98, R301, R307: a packet cut off by the end of the command sequence raises TRUNCATED, whatever its other header
bits are. -/
def Obligations.MissingArgumentWordsRaiseTruncated : Prop :=
  ∀ (s : State) (hdr : Word) (args : List Word) (op : Opcode), s.halted = false → s.cmds = hdr :: args →
    hdrOp hdr = opcodeBits op → args.length + 1 < packetLength op →
    step s = .next (s.takeFault .truncated 0)

/-! ### A step, the ends of a run, and the host (60, 70) -/

/-- R71, R98, R362: when the words at `pc` decode to a command, a step of an engine that is not halted executes exactly
it; nothing is added around its meaning. -/
def Obligations.StepRunsDecodedCommand : Prop :=
  ∀ (s : State) (i : Instr) (rest : List Word), s.halted = false → decode s.cmds = .command i rest →
    step s = exec i s

/-- R98, R317, R364: with no word left the engine is idle: no fault, no change. The model's step of an idle engine is
log 8. -/
def Obligations.IdleEngineKeepsState : Prop :=
  ∀ s : State, s.halted = false → s.cmds = [] → step s = .next s

/-- R306, R308, R320: a halted engine executes nothing; a host write of a register changes nothing; a host write of a data
byte changes that memory alone, and the engine stays halted; only reset leaves the halted state. That the step answers a
fault is the model's choice, log 7. -/
def Obligations.HaltedEngineOnlyLeavesByReset : Prop :=
  ∀ s : State, s.halted = true →
    step s = .fault .halted ∧ (∀ (index : Nat) (w : Word), portWriteReg s index w = s) ∧
    (∀ (a : Nat) (b : Byte) (t : State), portWriteMem s a b = some t → t = s.putMem t.mem ∧ t.halted = true) ∧
    (portReset s).halted = false

/-- R304: taking a fault writes STATUS, FAULT_CMD, FAULT_PC and FAULT_ADDR, leaves everything else, and halts. -/
def Obligations.FaultEntryWritesOnlyFaultRegisters : Prop :=
  ∀ (s : State) (c : Cause) (addr : Word) (hdr : Word) (args : List Word), s.cmds = hdr :: args →
    ∃ t, s.raise c addr = .next t ∧
      faultFlag t.status = true ∧ causeField t.status = causeCode c ∧ t.status.extractLsb' 4 28 = 0 ∧
      t.faultCmd = hdr ∧ t.faultPc = s.pc ∧ t.faultAddr = addr ∧
      t.pc = s.pc ∧ t.cmds = s.cmds ∧ t.v = s.v ∧ t.vw = s.vw ∧ SameSha s t ∧ SameRmd s t ∧ t.mem = s.mem ∧
      t.inst = s.inst ∧ t.halted = true

/-- R305, R17: the faults a step takes are precise. If it leaves the engine halted, it wrote the fault registers and
nothing else. -/
def Obligations.FaultsArePrecise : Prop :=
  ∀ s t : State, step s = .next t → t.halted = true → ∃ c addr, t = s.takeFault c addr

/-- R31, R93: a command that completes advances `pc` by its packet's length modulo 2^32 and consumes its words; a faulting
command leaves both. -/
def Obligations.PcAdvancesByPacketLength : Prop :=
  ∀ (s t : State) (i : Instr) (rest : List Word), s.halted = false → decode s.cmds = .command i rest →
    step s = .next t →
    (t.halted = true ∧ t.pc = s.pc ∧ t.cmds = s.cmds) ∨
    (t.halted = false ∧ t.pc = s.pc + BitVec.ofNat 32 (packetLength i.opcode) ∧ t.cmds = rest)

/-- R362, R364: a run of a finite command sequence ends, completed or faulted, within as many steps as it has words. -/
def Obligations.RunsEnd : Prop :=
  ∀ s : State, ∃ n, n ≤ s.cmds.length ∧ ∃ t : State, Sys2Proof.core.run n s = .next t ∧
    (t.completed = true ∨ t.faulted = true)

/-- R36 to R41: what a host read of each register answers; CFG is `0x2000 | log2(W)`. -/
def Obligations.HostRegisterReads : Prop :=
  ∀ s : State,
    portReadReg s 0 = 0 ∧ portReadReg s 1 = s.status ∧
    portReadReg s 2 = 0x2000 ||| BitVec.ofNat 32 s.inst.width.log2 ∧ 2 ^ s.inst.width.log2 = s.lanesOf ∧
    portReadReg s 3 = s.faultCmd ∧ portReadReg s 4 = s.faultPc ∧ portReadReg s 5 = s.faultAddr ∧
    ∀ index, 6 ≤ index → portReadReg s index = 0 ∧ ∀ w, portWriteReg s index w = s

/-- R36 to R38, log 12: a host write of any register but CMD changes nothing, whether the engine is halted or not. R36
calls 1 to 5 read-only; that a write of one is ignored is the model's choice, log 12. -/
def Obligations.HostWritesOnlyCmd : Prop :=
  ∀ (s : State) (index : Nat) (w : Word), index ≠ 0 → portWriteReg s index w = s

/-- R320, R62: the host can write a data byte exactly where it is admitted, halted or not; the write changes data memory
alone, and the byte then reads back, every other byte as before. -/
def Obligations.HostMemoryAccess : Prop :=
  ∀ (s : State) (a : Nat) (b : Byte),
    ((∃ t, portWriteMem s a b = some t) ↔ a < 2 ^ 32 ∧ memAdmit s.inst.admitted a = true) ∧
    ∀ t, portWriteMem s a b = some t →
      t = s.putMem t.mem ∧ ∀ x, portReadMem t x = if x = a then b else portReadMem s x

/-- R320, R306: words written to CMD join the end of the command sequence in order, and change nothing else, unless the
engine is halted. -/
def Obligations.CmdWritesAppend : Prop :=
  ∀ (s : State) (ws : List Word), s.halted = false →
    portWriteCmd s ws = { s with cmds := s.cmds ++ ws }

/-- R350, R351, R46: what reset leaves, of every instance and from every state; data memory keeps every byte. The values
of `V`, `HS` and `HR`, which the spec leaves UNSPECIFIED, are not part of the statement. -/
def Obligations.ResetLeavesSpecValues : Prop :=
  ∀ s : State,
    (∀ k : Reg, (portReset s).written k = false) ∧ (portReset s).pc = 0 ∧ (portReset s).cmds = [] ∧
    (portReset s).sts = .uninit ∧ (portReset s).str = .uninit ∧ (portReset s).status = 0 ∧
    (portReset s).faultCmd = 0 ∧ (portReset s).faultPc = 0 ∧ (portReset s).faultAddr = 0 ∧
    (portReset s).inst = s.inst ∧ portReadReg (portReset s) 2 = portReadReg s 2 ∧ SameBytes s (portReset s)

/-! ### Backend primitives (40_backend_alu.md) -/

/-- R133: MIRROR broadcasts its constant, from every state. -/
def Obligations.MirrorBroadcastsConstant : Prop :=
  ∀ (s : State) (d : Reg) (imm : Word), ∃ t, exec (.mirror d imm) s = .next t ∧
    (t.readV d).length = s.lanesOf ∧ (∀ i, i < s.lanesOf → lane (t.readV d) i = imm) ∧ t.written d = true ∧
    Retired 2 s t ∧ RegisterFrame d s t

/-- R134, R131: ADD completes when both sources are written; each lane is the sum modulo 2^32. -/
def Obligations.AddSumsLanesModulo : Prop :=
  ∀ (s : State) (d a b : Reg), s.written a = true → s.written b = true →
    ∃ t, exec (.add d a b) s = .next t ∧ (t.readV d).length = s.lanesOf ∧
      (∀ i, i < s.lanesOf → (lane (t.readV d) i).toNat =
        ((lane (s.readV a) i).toNat + (lane (s.readV b) i).toNat) % 2 ^ 32) ∧
      t.written d = true ∧ Retired 1 s t ∧ RegisterFrame d s t

/-- R135 to R138, R131: XOR, OR, AND and ANDN complete when both sources are written and act on each bit of each lane
alone; ANDN complements its FIRST source. -/
def Obligations.BitwiseCommandsActPerBit : Prop :=
  ∀ (s : State) (d a b : Reg), s.written a = true → s.written b = true →
    (∃ t, exec (.xor d a b) s = .next t ∧ (t.readV d).length = s.lanesOf ∧
      (∀ i, i < s.lanesOf → ∀ k, k < 32 → (lane (t.readV d) i).getLsbD k =
        Bool.xor ((lane (s.readV a) i).getLsbD k) ((lane (s.readV b) i).getLsbD k)) ∧
      t.written d = true ∧ Retired 1 s t ∧ RegisterFrame d s t) ∧
    (∃ t, exec (.or d a b) s = .next t ∧ (t.readV d).length = s.lanesOf ∧
      (∀ i, i < s.lanesOf → ∀ k, k < 32 → (lane (t.readV d) i).getLsbD k =
        ((lane (s.readV a) i).getLsbD k || (lane (s.readV b) i).getLsbD k)) ∧
      t.written d = true ∧ Retired 1 s t ∧ RegisterFrame d s t) ∧
    (∃ t, exec (.and d a b) s = .next t ∧ (t.readV d).length = s.lanesOf ∧
      (∀ i, i < s.lanesOf → ∀ k, k < 32 → (lane (t.readV d) i).getLsbD k =
        ((lane (s.readV a) i).getLsbD k && (lane (s.readV b) i).getLsbD k)) ∧
      t.written d = true ∧ Retired 1 s t ∧ RegisterFrame d s t) ∧
    (∃ t, exec (.andn d a b) s = .next t ∧ (t.readV d).length = s.lanesOf ∧
      (∀ i, i < s.lanesOf → ∀ k, k < 32 → (lane (t.readV d) i).getLsbD k =
        (!(lane (s.readV a) i).getLsbD k && (lane (s.readV b) i).getLsbD k)) ∧
      t.written d = true ∧ Retired 1 s t ∧ RegisterFrame d s t)

/-- R139, R140, R14: SHL and SHR complete when the source is written, for every amount 0..31; SHL multiplies by 2^n modulo
2^32, SHR divides by 2^n. -/
def Obligations.ShiftsScaleLanes : Prop :=
  ∀ (s : State) (d a : Reg) (n : BitVec 5), s.written a = true →
    (∃ t, exec (.shl d a n) s = .next t ∧ (t.readV d).length = s.lanesOf ∧
      (∀ i, i < s.lanesOf →
        (lane (t.readV d) i).toNat = ((lane (s.readV a) i).toNat * 2 ^ n.toNat) % 2 ^ 32) ∧
      t.written d = true ∧ Retired 1 s t ∧ RegisterFrame d s t) ∧
    (∃ t, exec (.shr d a n) s = .next t ∧ (t.readV d).length = s.lanesOf ∧
      (∀ i, i < s.lanesOf → (lane (t.readV d) i).toNat = (lane (s.readV a) i).toNat / 2 ^ n.toNat) ∧
      t.written d = true ∧ Retired 1 s t ∧ RegisterFrame d s t)

/-- R141, R95: ROTL completes when the source is written and `n` is in 1..31; bit `k` of each lane moves to bit
`(k + n) mod 32` of the same lane. -/
def Obligations.RotateMovesEachBit : Prop :=
  ∀ (s : State) (d a : Reg) (n : BitVec 5), s.written a = true → n ≠ 0 →
    ∃ t, exec (.rotl d a n) s = .next t ∧ (t.readV d).length = s.lanesOf ∧
      (∀ i, i < s.lanesOf → ∀ k, k < 32 →
        (lane (t.readV d) i).getLsbD ((k + n.toNat) % 32) = (lane (s.readV a) i).getLsbD k) ∧
      t.written d = true ∧ Retired 1 s t ∧ RegisterFrame d s t

/-- R302: a command with an unwritten source register raises UNWRITTEN; so do BLOCK and SAVE of an engine in UNINIT. The
destination's written flag is never checked. -/
def Obligations.UnwrittenSourceRaisesUnwritten : Prop :=
  (∀ (i : Instr) (s : State) (k : Reg), i.wf = true → k ∈ sourcesOf i → s.written k = false →
    exec i s = .next (s.takeFault .unwritten 0)) ∧
  (∀ (s : State) (x : Word), s.sts = .uninit →
    exec (.shaBlock x) s = .next (s.takeFault .unwritten 0) ∧
    exec (.shaSave x) s = .next (s.takeFault .unwritten 0)) ∧
  (∀ (s : State) (x : Word), s.str = .uninit →
    exec (.rmdBlock x) s = .next (s.takeFault .unwritten 0) ∧
    exec (.rmdSave x) s = .next (s.takeFault .unwritten 0)) ∧
  (∀ (i : Instr) (s : State), familyOf i = .primitive → i.wf = true → (∀ k ∈ sourcesOf i, s.written k = true) →
    ∃ t, exec i s = .next t ∧ t.status = s.status) ∧
  (∀ (s : State) (v : Reg) (bo : ByteOrder) (addr : Word),
    (∀ i, i < s.lanesOf → s.admits (addr.toNat + 64 * i) 4 = true) →
    ∃ t, exec (.load v bo addr) s = .next t ∧ t.status = s.status)

/-- Operand values the decoder never yields (R95, R97) raise ILLEGAL as terms too: the model's choice, log 11. -/
def Obligations.IllFormedOperandsRaiseIllegal : Prop :=
  ∀ (i : Instr) (s : State), i.wf = false → exec i s = .next (s.takeFault .illegal 0)

/-- R130, R132: lane `k` of the result of a primitive command depends on lane `k` of the registers alone, and on no lane
count: two states of any widths that agree in lane `k` and in the written flags still do after it. -/
def Obligations.LaneResultsIndependentOfWidth : Prop :=
  ∀ (i : Instr) (s u : State) (k : Nat), familyOf i = .primitive → k < s.lanesOf → k < u.lanesOf →
    (∀ r : Reg, u.written r = s.written r) → (∀ r : Reg, lane (u.readV r) k = lane (s.readV r) k) →
    ∃ s' u', exec i s = .next s' ∧ exec i u = .next u' ∧ (∀ r : Reg, u'.written r = s'.written r) ∧
      ∀ r : Reg, lane (u'.readV r) k = lane (s'.readV r) k

/-- R143 (a) to (e), R14: the laws of the per-lane primitives. -/
def Obligations.RotateAndShiftLaws : Prop :=
  (∀ (x : Word) (n : Nat), 1 ≤ n → n ≤ 31 → rotl32 (rotl32 x n) (32 - n) = x) ∧
  (∀ (x : Word) (n : Nat), 1 ≤ n → n ≤ 31 → rotl32 x n = shl32 x n ^^^ shr32 x (32 - n)) ∧
  (∀ x y z : Word, x + y = y + x ∧ x + y + z = x + (y + z)) ∧
  (∀ x y : Word, ~~~x &&& y = (x ^^^ 0xFFFFFFFF) &&& y) ∧
  (∀ (x : Word) (n : Nat), n < 32 → shr32 (shl32 x n) n = x &&& shr32 0xFFFFFFFF n)

/-! ### Transpose (41_backend_transpose.md) and data memory (20_memory.md) -/

/-- R170, R61: LOAD completes when each lane's 4 bytes are admitted; lane `i` is the word at `addr + 64·i`. -/
def Obligations.LoadGathersLanes : Prop :=
  ∀ (s : State) (v : Reg) (bo : ByteOrder) (addr : Word),
    (∀ i, i < s.lanesOf → s.admits (addr.toNat + 64 * i) 4 = true) →
    ∃ t, exec (.load v bo addr) s = .next t ∧ (t.readV v).length = s.lanesOf ∧
      (∀ i, i < s.lanesOf → lane (t.readV v) i =
        decWord bo (s.mem.read (addr.toNat + 64 * i)) (s.mem.read (addr.toNat + 64 * i + 1))
          (s.mem.read (addr.toNat + 64 * i + 2)) (s.mem.read (addr.toNat + 64 * i + 3))) ∧
      t.written v = true ∧ Retired 2 s t ∧ RegisterFrame v s t

/-- R171, R78: SAVE completes when its register is written, its record size is at least 4 and each lane's 4 bytes are
admitted; lane `i` is stored at `addr + rec·i`, and every other byte reads as before. -/
def Obligations.SaveScattersLanes : Prop :=
  ∀ (s : State) (v : Reg) (bo : ByteOrder) (recSize : BitVec 12) (addr : Word), s.written v = true →
    4 ≤ recSize.toNat → (∀ i, i < s.lanesOf → s.admits (addr.toNat + recSize.toNat * i) 4 = true) →
    ∃ t, exec (.save v bo recSize addr) s = .next t ∧
      (∀ i, i < s.lanesOf → ∀ k, k < 4 → t.mem.read (addr.toNat + recSize.toNat * i + k) =
        (encWord bo (lane (s.readV v) i)).getD k 0) ∧
      (∀ x, (∀ i, i < s.lanesOf →
          ¬(addr.toNat + recSize.toNat * i ≤ x ∧ x < addr.toNat + recSize.toNat * i + 4)) →
        t.mem.read x = s.mem.read x) ∧
      Retired 2 s t ∧ SameHostSide s t ∧ SameVectors s t ∧ SameSha s t ∧ SameRmd s t

/-- R173: a SAVE with record size 64, or any record size on one lane, followed by a LOAD of the same order and base gives
the saved lanes back. -/
def Obligations.SaveThenLoadReturnsLanes : Prop :=
  ∀ (s : State) (v u : Reg) (bo : ByteOrder) (recSize : BitVec 12) (addr : Word), s.written v = true →
    4 ≤ recSize.toNat → (recSize.toNat = 64 ∨ s.lanesOf = 1) →
    (∀ i, i < s.lanesOf → s.admits (addr.toNat + recSize.toNat * i) 4 = true) →
    ∃ m t, exec (.save v bo recSize addr) s = .next m ∧ exec (.load u bo addr) m = .next t ∧
      ∀ i, i < s.lanesOf → lane (t.readV u) i = lane (s.readV v) i

/-- R15, R64, R174: each byte order decodes what it encodes and encodes what it decodes, and one is the reversal of the
other. -/
def Obligations.ByteOrdersRoundTrip : Prop :=
  (∀ (bo : ByteOrder) (x : Word), ∃ b0 b1 b2 b3, encWord bo x = [b0, b1, b2, b3] ∧ decWord bo b0 b1 b2 b3 = x) ∧
  (∀ (bo : ByteOrder) (b0 b1 b2 b3 : Byte), encWord bo (decWord bo b0 b1 b2 b3) = [b0, b1, b2, b3]) ∧
  (∀ b0 b1 b2 b3 : Byte, decWord .le b0 b1 b2 b3 = decWord .be b3 b2 b1 b0) ∧
  (∀ x : Word, encWord .le x = (encWord .be x).reverse) ∧
  (∀ b0 b1 b2 b3 : Byte, (decWord .be b0 b1 b2 b3).toNat =
    b0.toNat * 2 ^ 24 + b1.toNat * 2 ^ 16 + b2.toNat * 2 ^ 8 + b3.toNat)

/-- R61, R16: what admission means: a range is admitted exactly when it does not pass 2^32 and `MEM_ADMIT` holds of each of
its bytes; a byte is admitted exactly when a region holds it (the regions are log 5). -/
def Obligations.AdmissionIsBytewise : Prop :=
  (∀ (s : State) (a n : Nat), s.admits a n = true ↔
    a + n ≤ 2 ^ 32 ∧ ∀ x, a ≤ x → x < a + n → memAdmit s.inst.admitted x = true) ∧
  (∀ (regions : List Region) (x : Nat), memAdmit regions x = true ↔
    ∃ r ∈ regions, r.base ≤ x ∧ x < r.base + r.size)

/-- R303, R61, R212, R307: each command whose earlier checks pass and whose range is not admitted raises ACCESS with the
range's base; a TRUNK reports its input range before its output range. -/
def Obligations.AccessFaultsReportBase : Prop :=
  (∀ (s : State) (v : Reg) (bo : ByteOrder) (addr : Word) (i : Nat), i < s.lanesOf →
    s.admits (addr.toNat + 64 * i) 4 = false → exec (.load v bo addr) s = .next (s.takeFault .access addr)) ∧
  (∀ (s : State) (v : Reg) (bo : ByteOrder) (recSize : BitVec 12) (addr : Word) (i : Nat), 4 ≤ recSize.toNat →
    s.written v = true → i < s.lanesOf → s.admits (addr.toNat + recSize.toNat * i) 4 = false →
    exec (.save v bo recSize addr) s = .next (s.takeFault .access addr)) ∧
  (∀ (s : State) (addr : Word), s.admits addr.toNat (64 * s.lanesOf) = false →
    (s.sts = .active → exec (.shaBlock addr) s = .next (s.takeFault .access addr)) ∧
    (s.str = .active → exec (.rmdBlock addr) s = .next (s.takeFault .access addr))) ∧
  (∀ (s : State) (out : Word),
    (s.sts ≠ .uninit → s.admits out.toNat (32 * s.lanesOf) = false →
      exec (.shaSave out) s = .next (s.takeFault .access out)) ∧
    (s.str ≠ .uninit → s.admits out.toNat (20 * s.lanesOf) = false →
      exec (.rmdSave out) s = .next (s.takeFault .access out))) ∧
  (∀ (s : State) (out inp count : Word), s.admits inp.toNat (64 * s.lanesOf * count.toNat) = false →
    exec (.shaTrunk out inp count) s = .next (s.takeFault .access inp) ∧
    exec (.rmdTrunk out inp count) s = .next (s.takeFault .access inp)) ∧
  (∀ (s : State) (out inp count : Word), s.admits inp.toNat (64 * s.lanesOf * count.toNat) = true →
    (s.admits out.toNat (32 * s.lanesOf) = false →
      exec (.shaTrunk out inp count) s = .next (s.takeFault .access out)) ∧
    (s.admits out.toNat (20 * s.lanesOf) = false →
      exec (.rmdTrunk out inp count) s = .next (s.takeFault .access out)))

/-- R60: the canonical form of data memory is unique: canonical memories that read alike at every address are equal. -/
def Obligations.CanonicalMemoryIsExtensional : Prop :=
  ∀ m m' : Memory, m.wf = true → m'.wf = true → (∀ a, m.read a = m'.read a) → m = m'

/-! ### The hash engines (42_sha256.md, 43_ripemd160.md) -/

/-- R209, R260, R201, R251: SHA_INIT and RMD_INIT complete from every state, put the IV into every lane and make the
status ACTIVE. -/
def Obligations.InitLoadsIv : Prop :=
  ∀ s : State,
    (∃ t, exec .shaInit s = .next t ∧
      (∀ i, i < s.lanesOf → t.hs.lane i =
        ⟨0x6a09e667, 0xbb67ae85, 0x3c6ef372, 0xa54ff53a, 0x510e527f, 0x9b05688c, 0x1f83d9ab, 0x5be0cd19⟩) ∧
      t.sts = .active ∧ Retired 1 s t ∧ ShaFrame s t ∧ SameBytes s t) ∧
    (∃ t, exec .rmdInit s = .next t ∧
      (∀ i, i < s.lanesOf → t.hr.lane i = ⟨0x67452301, 0xEFCDAB89, 0x98BADCFE, 0x10325476, 0xC3D2E1F0⟩) ∧
      t.str = .active ∧ Retired 1 s t ∧ RmdFrame s t ∧ SameBytes s t)

/-- R210, R208: SHA_BLOCK completes in ACTIVE when the round-group is admitted; lane `i` is compressed with the block at
`addr + 64·i`. -/
def Obligations.ShaBlockCompressesLanes : Prop :=
  ∀ (s : State) (addr : Word), s.sts = .active → s.admits addr.toNat (64 * s.lanesOf) = true →
    ∃ t, exec (.shaBlock addr) s = .next t ∧
      (∀ i, i < s.lanesOf →
        t.hs.lane i = shaCompress (s.hs.lane i) (s.mem.readBytes (addr.toNat + 64 * i) 64)) ∧
      t.sts = .active ∧ Retired 2 s t ∧ ShaFrame s t ∧ SameBytes s t

/-- R261: RMD_BLOCK, likewise. -/
def Obligations.RmdBlockCompressesLanes : Prop :=
  ∀ (s : State) (addr : Word), s.str = .active → s.admits addr.toNat (64 * s.lanesOf) = true →
    ∃ t, exec (.rmdBlock addr) s = .next t ∧
      (∀ i, i < s.lanesOf →
        t.hr.lane i = rmdCompress (s.hr.lane i) (s.mem.readBytes (addr.toNat + 64 * i) 64)) ∧
      t.str = .active ∧ Retired 2 s t ∧ RmdFrame s t ∧ SameBytes s t

/-- R211, R70: SHA_SAVE completes in ACTIVE and in FINAL when the digest buffer is admitted; word `j` of lane `i` stands
big-endian at `out + 32·i + 4·j`, every byte outside the buffer reads as before, `HS` does not change. -/
def Obligations.ShaSaveWritesDigests : Prop :=
  ∀ (s : State) (out : Word), s.sts ≠ .uninit → s.admits out.toNat (32 * s.lanesOf) = true →
    ∃ t, exec (.shaSave out) s = .next t ∧
      (∀ i, i < s.lanesOf → ∀ j, j < 8 → ∀ k, k < 4 → t.mem.read (out.toNat + 32 * i + 4 * j + k) =
        (encBe32 (lane (s.hs.toList.getD j []) i)).getD k 0) ∧
      (∀ x, ¬(out.toNat ≤ x ∧ x < out.toNat + 32 * s.lanesOf) → t.mem.read x = s.mem.read x) ∧
      t.hs = s.hs ∧ t.sts = .final ∧ Retired 2 s t ∧ ShaFrame s t

/-- R262, R70: RMD_SAVE, likewise, with five little-endian words in records of 20 bytes. -/
def Obligations.RmdSaveWritesDigests : Prop :=
  ∀ (s : State) (out : Word), s.str ≠ .uninit → s.admits out.toNat (20 * s.lanesOf) = true →
    ∃ t, exec (.rmdSave out) s = .next t ∧
      (∀ i, i < s.lanesOf → ∀ j, j < 5 → ∀ k, k < 4 → t.mem.read (out.toNat + 20 * i + 4 * j + k) =
        (encLe32 (lane (s.hr.toList.getD j []) i)).getD k 0) ∧
      (∀ x, ¬(out.toNat ≤ x ∧ x < out.toNat + 20 * s.lanesOf) → t.mem.read x = s.mem.read x) ∧
      t.hr = s.hr ∧ t.str = .final ∧ Retired 2 s t ∧ RmdFrame s t

/-- R213, R69, R70: SHA_TRUNK completes in every status when both ranges are admitted; lane `i` hashes its blocks from the
IV, its digest is written, every byte outside the digest buffer reads as before, the chaining value stays in `HS`. -/
def Obligations.ShaTrunkHashesTrunk : Prop :=
  ∀ (s : State) (out inp count : Word), s.admits inp.toNat (64 * s.lanesOf * count.toNat) = true →
    s.admits out.toNat (32 * s.lanesOf) = true →
    ∃ t, exec (.shaTrunk out inp count) s = .next t ∧
      (∀ i, i < s.lanesOf → t.hs.lane i = laneSha s.mem inp.toNat s.lanesOf i count.toNat) ∧
      (∀ i, i < s.lanesOf → ∀ j, j < 8 → ∀ k, k < 4 → t.mem.read (out.toNat + 32 * i + 4 * j + k) =
        (encBe32 ((laneSha s.mem inp.toNat s.lanesOf i count.toNat).toList.getD j 0)).getD k 0) ∧
      (∀ x, ¬(out.toNat ≤ x ∧ x < out.toNat + 32 * s.lanesOf) → t.mem.read x = s.mem.read x) ∧
      t.sts = .final ∧ Retired 4 s t ∧ ShaFrame s t

/-- R263, R69, R70: RMD_TRUNK, likewise. -/
def Obligations.RmdTrunkHashesTrunk : Prop :=
  ∀ (s : State) (out inp count : Word), s.admits inp.toNat (64 * s.lanesOf * count.toNat) = true →
    s.admits out.toNat (20 * s.lanesOf) = true →
    ∃ t, exec (.rmdTrunk out inp count) s = .next t ∧
      (∀ i, i < s.lanesOf → t.hr.lane i = laneRmd s.mem inp.toNat s.lanesOf i count.toNat) ∧
      (∀ i, i < s.lanesOf → ∀ j, j < 5 → ∀ k, k < 4 → t.mem.read (out.toNat + 20 * i + 4 * j + k) =
        (encLe32 ((laneRmd s.mem inp.toNat s.lanesOf i count.toNat).toList.getD j 0)).getD k 0) ∧
      (∀ x, ¬(out.toNat ≤ x ∧ x < out.toNat + 20 * s.lanesOf) → t.mem.read x = s.mem.read x) ∧
      t.str = .final ∧ Retired 4 s t ∧ RmdFrame s t

/-- R214: SHA_TRUNK leaves the same `HS`, STS and data memory as SHA_INIT, then SHA_BLOCK of each round-group, then
SHA_SAVE, even when the output overlaps the trunk. -/
def Obligations.ShaTrunkEqualsSteps : Prop :=
  ∀ (s : State) (out inp count : Word), s.admits inp.toNat (64 * s.lanesOf * count.toNat) = true →
    s.admits out.toNat (32 * s.lanesOf) = true →
    ∃ t u, exec (.shaTrunk out inp count) s = .next t ∧
      execAll ([.shaInit] ++ ((List.range count.toNat).map fun r =>
        .shaBlock (BitVec.ofNat 32 (inp.toNat + 64 * s.lanesOf * r))) ++ [.shaSave out]) s = .next u ∧
      t.hs = u.hs ∧ t.sts = u.sts ∧ t.mem = u.mem

/-- R264: RMD_TRUNK, likewise. -/
def Obligations.RmdTrunkEqualsSteps : Prop :=
  ∀ (s : State) (out inp count : Word), s.admits inp.toNat (64 * s.lanesOf * count.toNat) = true →
    s.admits out.toNat (20 * s.lanesOf) = true →
    ∃ t u, exec (.rmdTrunk out inp count) s = .next t ∧
      execAll ([.rmdInit] ++ ((List.range count.toNat).map fun r =>
        .rmdBlock (BitVec.ofNat 32 (inp.toNat + 64 * s.lanesOf * r))) ++ [.rmdSave out]) s = .next u ∧
      t.hr = u.hr ∧ t.str = u.str ∧ t.mem = u.mem

/-- R215, R208: lane `i`'s SHA-256 digest on an instance of any width is the digest the one-lane instance gives for lane
`i`'s blocks alone. -/
def Obligations.ShaDigestIndependentOfWidth : Prop :=
  ∀ (s u : State) (out inp out' inp' count : Word) (i : Nat), i < s.lanesOf → u.inst.width = .w1 →
    s.admits inp.toNat (64 * s.lanesOf * count.toNat) = true → s.admits out.toNat (32 * s.lanesOf) = true →
    u.admits inp'.toNat (64 * u.lanesOf * count.toNat) = true → u.admits out'.toNat (32 * u.lanesOf) = true →
    (∀ r, r < count.toNat → ∀ k, k < 64 → s.mem.read (trunkBlock inp.toNat s.lanesOf r i + k) =
      u.mem.read (trunkBlock inp'.toNat 1 r 0 + k)) →
    ∃ s' u', exec (.shaTrunk out inp count) s = .next s' ∧ exec (.shaTrunk out' inp' count) u = .next u' ∧
      s'.hs.lane i = u'.hs.lane 0 ∧
      ∀ k, k < 32 → s'.mem.read (out.toNat + 32 * i + k) = u'.mem.read (out'.toNat + k)

/-- R265: RIPEMD-160, likewise. -/
def Obligations.RmdDigestIndependentOfWidth : Prop :=
  ∀ (s u : State) (out inp out' inp' count : Word) (i : Nat), i < s.lanesOf → u.inst.width = .w1 →
    s.admits inp.toNat (64 * s.lanesOf * count.toNat) = true → s.admits out.toNat (20 * s.lanesOf) = true →
    u.admits inp'.toNat (64 * u.lanesOf * count.toNat) = true → u.admits out'.toNat (20 * u.lanesOf) = true →
    (∀ r, r < count.toNat → ∀ k, k < 64 → s.mem.read (trunkBlock inp.toNat s.lanesOf r i + k) =
      u.mem.read (trunkBlock inp'.toNat 1 r 0 + k)) →
    ∃ s' u', exec (.rmdTrunk out inp count) s = .next s' ∧ exec (.rmdTrunk out' inp' count) u = .next u' ∧
      s'.hr.lane i = u'.hr.lane 0 ∧
      ∀ k, k < 20 → s'.mem.read (out.toNat + 20 * i + k) = u'.mem.read (out'.toNat + k)

/-- R33: the statuses of the two engines: INIT from any status goes to ACTIVE; BLOCK requires ACTIVE and stays; SAVE goes
from ACTIVE or FINAL to FINAL; TRUNK from any status goes to FINAL; reset goes to UNINIT; BLOCK or SAVE in UNINIT raises
UNWRITTEN and BLOCK in FINAL raises SEQUENCE. -/
def Obligations.EngineStatusTransitions : Prop :=
  ∀ s : State,
    (∃ t, exec .shaInit s = .next t ∧ t.sts = .active) ∧ (∃ t, exec .rmdInit s = .next t ∧ t.str = .active) ∧
    (portReset s).sts = .uninit ∧ (portReset s).str = .uninit ∧
    (∀ x : Word,
      (s.sts = .uninit → exec (.shaBlock x) s = .next (s.takeFault .unwritten 0) ∧
        exec (.shaSave x) s = .next (s.takeFault .unwritten 0)) ∧
      (s.str = .uninit → exec (.rmdBlock x) s = .next (s.takeFault .unwritten 0) ∧
        exec (.rmdSave x) s = .next (s.takeFault .unwritten 0)) ∧
      (s.sts = .final → exec (.shaBlock x) s = .next (s.takeFault .sequence 0)) ∧
      (s.str = .final → exec (.rmdBlock x) s = .next (s.takeFault .sequence 0)) ∧
      (s.sts = .active → s.admits x.toNat (64 * s.lanesOf) = true →
        ∃ t, exec (.shaBlock x) s = .next t ∧ t.sts = .active) ∧
      (s.str = .active → s.admits x.toNat (64 * s.lanesOf) = true →
        ∃ t, exec (.rmdBlock x) s = .next t ∧ t.str = .active) ∧
      (s.sts ≠ .uninit → s.admits x.toNat (32 * s.lanesOf) = true →
        ∃ t, exec (.shaSave x) s = .next t ∧ t.sts = .final) ∧
      (s.str ≠ .uninit → s.admits x.toNat (20 * s.lanesOf) = true →
        ∃ t, exec (.rmdSave x) s = .next t ∧ t.str = .final)) ∧
    (∀ out inp count : Word, s.admits inp.toNat (64 * s.lanesOf * count.toNat) = true →
      (s.admits out.toNat (32 * s.lanesOf) = true →
        ∃ t, exec (.shaTrunk out inp count) s = .next t ∧ t.sts = .final) ∧
      (s.admits out.toNat (20 * s.lanesOf) = true →
        ∃ t, exec (.rmdTrunk out inp count) s = .next t ∧ t.str = .final))

/-- R202 to R207: `SHA256_COMPRESS` is the schedule, the 64 rounds and the feedback of the spec, with the table of R202
written out, indexed by `t` as the spec indexes them, for every chaining value and every 64-byte block. -/
def Obligations.ShaCompressFollowsRounds : Prop :=
  ∀ (x : Hash8 Word) (blk : List Byte), blk.length = 64 →
    ∃ (roundK : List Word) (w : Nat → Word) (r : Nat → Hash8 Word),
      roundK = [0x428a2f98, 0x71374491, 0xb5c0fbcf, 0xe9b5dba5, 0x3956c25b, 0x59f111f1, 0x923f82a4, 0xab1c5ed5]
        ++ [0xd807aa98, 0x12835b01, 0x243185be, 0x550c7dc3, 0x72be5d74, 0x80deb1fe, 0x9bdc06a7, 0xc19bf174]
        ++ [0xe49b69c1, 0xefbe4786, 0x0fc19dc6, 0x240ca1cc, 0x2de92c6f, 0x4a7484aa, 0x5cb0a9dc, 0x76f988da]
        ++ [0x983e5152, 0xa831c66d, 0xb00327c8, 0xbf597fc7, 0xc6e00bf3, 0xd5a79147, 0x06ca6351, 0x14292967]
        ++ [0x27b70a85, 0x2e1b2138, 0x4d2c6dfc, 0x53380d13, 0x650a7354, 0x766a0abb, 0x81c2c92e, 0x92722c85]
        ++ [0xa2bfe8a1, 0xa81a664b, 0xc24b8b70, 0xc76c51a3, 0xd192e819, 0xd6990624, 0xf40e3585, 0x106aa070]
        ++ [0x19a4c116, 0x1e376c08, 0x2748774c, 0x34b0bcb5, 0x391c0cb3, 0x4ed8aa4a, 0x5b9cca4f, 0x682e6ff3]
        ++ [0x748f82ee, 0x78a5636f, 0x84c87814, 0x8cc70208, 0x90befffa, 0xa4506ceb, 0xbef9a3f7, 0xc67178f2] ∧
      (∀ t, t < 16 → w t = be32 (blk.getD (4 * t) 0) (blk.getD (4 * t + 1) 0) (blk.getD (4 * t + 2) 0)
        (blk.getD (4 * t + 3) 0)) ∧
      (∀ t, 16 ≤ t → t < 64 →
        w t = w (t - 16) + (rotr32 (w (t - 15)) 7 ^^^ rotr32 (w (t - 15)) 18 ^^^ shr32 (w (t - 15)) 3) + w (t - 7)
          + (rotr32 (w (t - 2)) 17 ^^^ rotr32 (w (t - 2)) 19 ^^^ shr32 (w (t - 2)) 10)) ∧
      r 0 = x ∧
      (∀ t, t < 64 → ∃ t1 t2 : Word,
        t1 = (r t).h + (rotr32 (r t).e 6 ^^^ rotr32 (r t).e 11 ^^^ rotr32 (r t).e 25)
          + ((r t).g ^^^ ((r t).e &&& ((r t).f ^^^ (r t).g))) + roundK.getD t 0 + w t ∧
        t2 = (rotr32 (r t).a 2 ^^^ rotr32 (r t).a 13 ^^^ rotr32 (r t).a 22)
          + (((r t).a &&& (r t).b) ||| ((r t).c &&& ((r t).a ||| (r t).b))) ∧
        r (t + 1) = ⟨t1 + t2, (r t).a, (r t).b, (r t).c, (r t).d + t1, (r t).e, (r t).f, (r t).g⟩) ∧
      shaCompress x blk = ⟨x.a + (r 64).a, x.b + (r 64).b, x.c + (r 64).c, x.d + (r 64).d, x.e + (r 64).e,
        x.f + (r 64).f, x.g + (r 64).g, x.h + (r 64).h⟩

/-- R203: `Ch` and `Maj` equal their textbook forms on every input. -/
def Obligations.ChAndMajAreTextbook : Prop :=
  ∀ a b c : Word, shaCh a b c = (a &&& b) ^^^ (~~~a &&& c) ∧
    shaMaj a b c = (a &&& b) ^^^ (a &&& c) ^^^ (b &&& c)

/-- R252 to R259: `RMD160_COMPRESS` is the two lines of 80 rounds and the cross-mix of the spec, indexed by `t`, with the
five functions and the tables of R253 to R255 written out: round `t` is in stage `t / 16`. -/
def Obligations.RmdCompressFollowsRounds : Prop :=
  ∀ (x : Hash5 Word) (blk : List Byte), blk.length = 64 →
    ∃ (rL rR sL sR : List Nat) (fL fR : List (Word → Word → Word → Word)) (w : Nat → Word)
      (l r : Nat → Hash5 Word),
      rL = [0, 1, 2, 3, 4, 5, 6, 7, 8, 9, 10, 11, 12, 13, 14, 15]
        ++ [7, 4, 13, 1, 10, 6, 15, 3, 12, 0, 9, 5, 2, 14, 11, 8]
        ++ [3, 10, 14, 4, 9, 15, 8, 1, 2, 7, 0, 6, 13, 11, 5, 12]
        ++ [1, 9, 11, 10, 0, 8, 12, 4, 13, 3, 7, 15, 14, 5, 6, 2]
        ++ [4, 0, 5, 9, 7, 12, 2, 10, 14, 1, 3, 8, 11, 6, 15, 13] ∧
      rR = [5, 14, 7, 0, 9, 2, 11, 4, 13, 6, 15, 8, 1, 10, 3, 12]
        ++ [6, 11, 3, 7, 0, 13, 5, 10, 14, 15, 8, 12, 4, 9, 1, 2]
        ++ [15, 5, 1, 3, 7, 14, 6, 9, 11, 8, 12, 2, 10, 0, 4, 13]
        ++ [8, 6, 4, 1, 3, 11, 15, 0, 5, 12, 2, 13, 9, 7, 10, 14]
        ++ [12, 15, 10, 4, 1, 5, 8, 7, 6, 2, 13, 14, 0, 3, 9, 11] ∧
      sL = [11, 14, 15, 12, 5, 8, 7, 9, 11, 13, 14, 15, 6, 7, 9, 8]
        ++ [7, 6, 8, 13, 11, 9, 7, 15, 7, 12, 15, 9, 11, 7, 13, 12]
        ++ [11, 13, 6, 7, 14, 9, 13, 15, 14, 8, 13, 6, 5, 12, 7, 5]
        ++ [11, 12, 14, 15, 14, 15, 9, 8, 9, 14, 5, 6, 8, 6, 5, 12]
        ++ [9, 15, 5, 11, 6, 8, 13, 12, 5, 12, 13, 14, 11, 8, 5, 6] ∧
      sR = [8, 9, 9, 11, 13, 15, 15, 5, 7, 7, 8, 11, 14, 14, 12, 6]
        ++ [9, 13, 15, 7, 12, 8, 9, 11, 7, 7, 12, 7, 6, 15, 13, 11]
        ++ [9, 7, 15, 11, 8, 6, 6, 14, 12, 13, 5, 14, 13, 13, 7, 5]
        ++ [15, 5, 8, 11, 14, 14, 6, 14, 6, 9, 12, 9, 12, 5, 15, 8]
        ++ [8, 5, 12, 9, 12, 5, 14, 6, 8, 13, 6, 5, 15, 13, 11, 11] ∧
      fL = [fun x y z => x ^^^ y ^^^ z, fun x y z => (x &&& y) ||| (~~~x &&& z), fun x y z => (x ||| ~~~y) ^^^ z,
        fun x y z => (x &&& z) ||| (y &&& ~~~z), fun x y z => x ^^^ (y ||| ~~~z)] ∧
      fR = fL.reverse ∧
      (∀ t, t < 16 → w t = le32 (blk.getD (4 * t) 0) (blk.getD (4 * t + 1) 0) (blk.getD (4 * t + 2) 0)
        (blk.getD (4 * t + 3) 0)) ∧
      l 0 = x ∧ r 0 = x ∧
      (∀ t, t < 80 → ∃ f, fL[t / 16]? = some f ∧
        l (t + 1) = ⟨(l t).e,
          rotl32 ((l t).a + f (l t).b (l t).c (l t).d + w (rL.getD t 0)
            + [0x00000000, 0x5A827999, 0x6ED9EBA1, 0x8F1BBCDC, 0xA953FD4E].getD (t / 16) 0) (sL.getD t 0) + (l t).e,
          (l t).b, rotl32 (l t).c 10, (l t).d⟩) ∧
      (∀ t, t < 80 → ∃ f, fR[t / 16]? = some f ∧
        r (t + 1) = ⟨(r t).e,
          rotl32 ((r t).a + f (r t).b (r t).c (r t).d + w (rR.getD t 0)
            + [0x50A28BE6, 0x5C4DD124, 0x6D703EF3, 0x7A6D76E9, 0x00000000].getD (t / 16) 0) (sR.getD t 0) + (r t).e,
          (r t).b, rotl32 (r t).c 10, (r t).d⟩) ∧
      rmdCompress x blk = ⟨x.b + (l 80).c + (r 80).d, x.c + (l 80).d + (r 80).e, x.d + (l 80).e + (r 80).a,
        x.e + (l 80).a + (r 80).b, x.a + (l 80).b + (r 80).c⟩

/-! ### The whole machine -/

/-- R30, R37, R39 to R41, R60, R304: every step keeps the invariant. Every VectorWord has W lanes, memory is canonical and
within [0, 2^32), and the fault registers are 0 or as one fault left them. -/
def Obligations.StepKeepsInvariant : Prop :=
  ∀ s t : State, s.Inv = true → step s = .next t → t.Inv = true

/-- R320, R350, R351: every move of the host keeps the invariant: a register write, CMD among them, a write of an admitted
data byte, and reset. -/
def Obligations.HostMovesKeepInvariant : Prop :=
  ∀ s : State, s.Inv = true →
    (∀ (index : Nat) (w : Word), (portWriteReg s index w).Inv = true) ∧
    (∀ (a : Nat) (b : Byte) (t : State), portWriteMem s a b = some t → t.Inv = true) ∧
    (portReset s).Inv = true

/-- R79, R315, R320, R355: instances just reset over a canonical memory have the invariant, and every move of a system, a
command of an instance or an action of the host, keeps it; so no schedule leaves it. -/
def Obligations.SystemMovesKeepInvariant : Prop :=
  (∀ (insts : List Instance) (m : Memory), m.wf = true →
    ({ engines := insts.map fun inst => State.afterReset inst m, mem := m } : System).Inv = true) ∧
  (∀ (y y' : System) (mv : Move), y.Inv = true → y.move mv = some y' → y'.Inv = true)

/-- R46, R350: the state after reset of every instance over every canonical memory has the invariant, and so has the
model's `State.reset` (log 1 to log 4). -/
def Obligations.ResetHasInvariant : Prop :=
  (∀ (inst : Instance) (m : Memory), m.wf = true → (State.afterReset inst m).Inv = true) ∧
    State.reset.Inv = true

/-- R30: no step clears a written flag. -/
def Obligations.StepsNeverClearWrittenFlags : Prop :=
  ∀ (s t : State) (k : Reg), step s = .next t → s.written k = true → t.written k = true

/-- R45, R38: no step changes W or MEM_ADMIT. -/
def Obligations.StepsKeepInstance : Prop :=
  ∀ s t : State, step s = .next t → t.inst = s.inst

/-- R30, R34, R60: which state each part of the command set may touch: the primitives, LOAD and SAVE no HashState or
status; the SHA_* commands no vector register and no RIPEMD-160 state; the RMD_* commands no vector register and no
SHA-256 state; only SAVE, the engine saves and the TRUNK commands change a byte of memory. -/
def Obligations.CommandsTouchOnlyTheirState : Prop :=
  ∀ (i : Instr) (s t : State), exec i s = .next t →
    ((familyOf i = .primitive ∨ familyOf i = .transpose) → SameSha s t ∧ SameRmd s t) ∧
    (familyOf i = .sha → SameVectors s t ∧ SameRmd s t) ∧
    (familyOf i = .rmd → SameVectors s t ∧ SameSha s t) ∧
    (storesMemory i = false → SameBytes s t) ∧
    (storesMemory i = true → SameVectors s t)

/-- R46 with R302 and R33: no step depends on the contents of an unwritten vector register or of a HashState in UNINIT,
which the spec leaves UNSPECIFIED; so the values the model names at reset (log 1, log 2) can never be seen. -/
def Obligations.UnreadableContentsDoNotMatter : Prop :=
  ∀ s u : State, SameReadable s u →
    (∀ t, step s = .next t → ∃ t', step u = .next t' ∧ SameReadable t t') ∧
    (∀ f, step s = .fault f → step u = .fault f)

/-- R360: whether a step faults, with what cause, and how `pc`, the statuses and the written flags move, depends on no
lane value and no byte of memory. -/
def Obligations.ControlIndependentOfData : Prop :=
  ∀ s u t : State, SameControl s u → step s = .next t → ∃ t', step u = .next t' ∧ SameControl t t'

/-- R315, R79: instances share no state but data memory: a move that concerns one instance leaves every other as it
was. -/
def Obligations.InstancesShareOnlyMemory : Prop :=
  ∀ (y y' : System) (mv : Move) (j : Nat), y.move mv = some y' → j ≠ mv.target →
    y'.engines[j]? = y.engines[j]?
end

