-- ==== Sys2Proof/Laws/Memory.lean ====
section
/-! SUPPORT. Data memory: what a read sees after a write, and that every operation keeps the canonical form. -/

namespace Sys2Proof.Machine

/-! ### Read after write, in every memory -/

theorem Memory.read_clear (m : Memory) (a x : Nat) :
    (m.clear a).read x = if x = a then 0 else m.read x := by
  induction m with
  | nil => simp [Memory.clear, Memory.read]
  | cons c m ih =>
    obtain ⟨k, y⟩ := c
    simp only [Memory.clear]
    by_cases hk : k = a
    · subst hk
      by_cases hx : x = k
      · simp_all
      · simp_all [Memory.read]
    · rw [if_neg hk]
      simp only [Memory.read]
      by_cases hx : x = k
      · simp_all
      · rw [if_neg hx, if_neg hx, ih]

theorem Memory.read_list (m : Memory) (a x : Nat) (b : Byte) (h : ∀ c ∈ m, c.1 ≠ a) :
    (m.list a b).read x = if x = a then b else m.read x := by
  induction m with
  | nil => simp [Memory.list, Memory.read]
  | cons c m ih =>
    obtain ⟨k, y⟩ := c
    have hka : k ≠ a := h (k, y) List.mem_cons_self
    simp only [Memory.list]
    by_cases hlt : a < k
    · rw [if_pos hlt]
      rfl
    · rw [if_neg hlt]
      simp only [Memory.read]
      by_cases hx : x = k
      · rw [if_pos hx, if_neg (by omega), if_pos hx]
      · rw [if_neg hx, if_neg hx, ih fun c hc => h c (List.mem_cons_of_mem _ hc)]

theorem Memory.mem_clear {m : Memory} {a : Nat} {c : Host.Cell} (h : c ∈ m.clear a) : c ∈ m ∧ c.1 ≠ a := by
  induction m with
  | nil => simp [Memory.clear] at h
  | cons d m ih =>
    obtain ⟨k, y⟩ := d
    simp only [Memory.clear] at h
    by_cases hk : k = a
    · rw [if_pos hk] at h
      exact ⟨List.mem_cons_of_mem _ (ih h).1, (ih h).2⟩
    · rw [if_neg hk] at h
      rcases List.mem_cons.1 h with rfl | h
      · exact ⟨List.mem_cons_self, hk⟩
      · exact ⟨List.mem_cons_of_mem _ (ih h).1, (ih h).2⟩

/-- A read after a write: the byte written at its address, every other address as before. -/
theorem Memory.read_write (m : Memory) (a x : Nat) (b : Byte) :
    (m.write a b).read x = if x = a then b else m.read x := by
  simp only [Memory.write]
  by_cases hb : b = 0
  · rw [if_pos hb, Memory.read_clear, hb]
  · rw [if_neg hb, Memory.read_list _ _ _ _ fun c hc => (Memory.mem_clear hc).2, Memory.read_clear]
    by_cases hx : x = a
    · rw [if_pos hx, if_pos hx]
    · rw [if_neg hx, if_neg hx, if_neg hx]

/-- A read after a run of writes: the run's byte inside it, every other address as before. -/
theorem Memory.read_writeBytes (m : Memory) (a x : Nat) (bs : List Byte) :
    (m.writeBytes a bs).read x = if a ≤ x ∧ x < a + bs.length then bs.getD (x - a) 0 else m.read x := by
  induction bs generalizing m a with
  | nil =>
    simp [Memory.writeBytes]
  | cons b bs ih =>
    simp only [Memory.writeBytes, ih, Memory.read_write, List.length_cons]
    by_cases h1 : x = a
    · subst h1
      rw [if_neg (by omega), if_pos rfl, if_pos (by omega)]
      simp
    · by_cases h2 : a + 1 ≤ x ∧ x < a + 1 + bs.length
      · rw [if_pos h2, if_pos (by omega)]
        have : x - a = (x - (a + 1)) + 1 := by omega
        rw [this, List.getD_cons_succ]
      · rw [if_neg h2, if_neg h1, if_neg (by omega)]

/-- An address outside every chunk reads as before. -/
theorem Memory.read_writeChunks_outside (m : Memory) (x : Nat) (cs : List (Nat × List Byte))
    (h : ∀ c ∈ cs, ¬(c.1 ≤ x ∧ x < c.1 + c.2.length)) : (m.writeChunks cs).read x = m.read x := by
  induction cs generalizing m with
  | nil => rfl
  | cons c cs ih =>
    have h1 := h c List.mem_cons_self
    have h2 := ih (m.writeBytes c.1 c.2) fun d hd => h d (List.mem_cons_of_mem _ hd)
    rw [Memory.read_writeBytes, if_neg h1] at h2
    exact h2

/-- An address in one chunk, and in no other, reads that chunk's byte. -/
theorem Memory.read_writeChunks_inside (m : Memory) (x : Nat) (cs : List (Nat × List Byte))
    (c : Nat × List Byte) (hc : c ∈ cs) (hx : c.1 ≤ x ∧ x < c.1 + c.2.length)
    (hd : ∀ d ∈ cs, d.1 ≤ x ∧ x < d.1 + d.2.length → d = c) :
    (m.writeChunks cs).read x = c.2.getD (x - c.1) 0 := by
  induction cs generalizing m with
  | nil => cases hc
  | cons e cs ih =>
    by_cases hin : c ∈ cs
    · exact ih (m.writeBytes e.1 e.2) hin fun d hdm => hd d (List.mem_cons_of_mem _ hdm)
    · have he : c = e := by
        rcases List.mem_cons.1 hc with h | h
        · exact h
        · exact absurd h hin
      subst he
      have hout : ∀ d ∈ cs, ¬(d.1 ≤ x ∧ x < d.1 + d.2.length) := fun d hdm hdx =>
        hin (hd d (List.mem_cons_of_mem _ hdm) hdx ▸ hdm)
      have := Memory.read_writeChunks_outside (m.writeBytes c.1 c.2) x cs hout
      rw [Memory.read_writeBytes, if_pos hx] at this
      exact this

@[simp] theorem Memory.length_readBytes (m : Memory) (a n : Nat) : (m.readBytes a n).length = n := by
  induction n generalizing a with
  | zero => rfl
  | succ n ih => simp [Memory.readBytes, ih]

/-- Byte `k` of a run read is the byte at that address. -/
theorem Memory.getD_readBytes (m : Memory) (a n k : Nat) (h : k < n) :
    (m.readBytes a n).getD k 0 = m.read (a + k) := by
  induction n generalizing a k with
  | zero => omega
  | succ n ih =>
    cases k with
    | zero => simp [Memory.readBytes]
    | succ k =>
      rw [Memory.readBytes, List.getD_cons_succ, ih (a + 1) k (by omega)]
      congr 1
      omega

/-- Two memories that read alike over a run give the same bytes of it. -/
theorem Memory.readBytes_congr {m m' : Memory} {a a' n : Nat}
    (h : ∀ k, k < n → m.read (a + k) = m'.read (a' + k)) : m.readBytes a n = m'.readBytes a' n := by
  induction n generalizing a a' with
  | zero => rfl
  | succ n ih =>
    simp only [Memory.readBytes]
    have h0 := h 0 (by omega)
    simp only [Nat.add_zero] at h0
    rw [h0, ih fun k hk => by
      have := h (k + 1) (by omega)
      rwa [show a + (k + 1) = a + 1 + k by omega, show a' + (k + 1) = a' + 1 + k by omega] at this]

/-! ### The canonical form -/

theorem Memory.wfFrom_mono {lo lo' : Nat} (h : lo' ≤ lo) {m : Memory} (hm : Memory.wfFrom lo m = true) :
    Memory.wfFrom lo' m = true := by
  cases m with
  | nil => rfl
  | cons c m =>
    simp only [Memory.wfFrom, Bool.and_eq_true, decide_eq_true_eq] at hm ⊢
    exact ⟨⟨⟨by omega, hm.1.1.2⟩, hm.1.2⟩, hm.2⟩

theorem Memory.wfFrom_clear {lo a : Nat} {m : Memory} (hm : Memory.wfFrom lo m = true) :
    Memory.wfFrom lo (m.clear a) = true := by
  induction m generalizing lo with
  | nil => rfl
  | cons c m ih =>
    obtain ⟨k, x⟩ := c
    simp only [Memory.wfFrom, Bool.and_eq_true, decide_eq_true_eq] at hm
    simp only [Memory.clear]
    split
    · exact ih (Memory.wfFrom_mono (by omega) hm.2)
    · simp only [Memory.wfFrom, Bool.and_eq_true, decide_eq_true_eq]
      exact ⟨hm.1, ih hm.2⟩

theorem Memory.wfFrom_list {lo a : Nat} {b : Byte} (hb : b ≠ 0) (hlo : lo ≤ a) (ha : a < 2 ^ 32) {m : Memory}
    (hn : ∀ c ∈ m, c.1 ≠ a) (hm : Memory.wfFrom lo m = true) : Memory.wfFrom lo (m.list a b) = true := by
  induction m generalizing lo with
  | nil => simp_all [Memory.list, Memory.wfFrom]
  | cons c m ih =>
    obtain ⟨k, x⟩ := c
    have hka : k ≠ a := hn (k, x) List.mem_cons_self
    simp only [Memory.wfFrom, Bool.and_eq_true, decide_eq_true_eq] at hm
    obtain ⟨⟨⟨h1, h2⟩, h3⟩, h4⟩ := hm
    simp only [Memory.list]
    split
    · simp only [Memory.wfFrom, Bool.and_eq_true, decide_eq_true_eq]
      exact ⟨⟨⟨hlo, ha⟩, hb⟩, ⟨⟨⟨by omega, h2⟩, h3⟩, h4⟩⟩
    · simp only [Memory.wfFrom, Bool.and_eq_true, decide_eq_true_eq]
      exact ⟨⟨⟨h1, h2⟩, h3⟩, ih (by omega) (fun c hc => hn c (List.mem_cons_of_mem _ hc)) h4⟩

/-- A write of an address below 2^32 keeps the canonical form. -/
theorem Memory.wf_write {m : Memory} {a : Nat} (b : Byte) (ha : a < 2 ^ 32) (hm : m.wf = true) :
    (m.write a b).wf = true := by
  simp only [Memory.write]
  split
  · exact Memory.wfFrom_clear hm
  · exact Memory.wfFrom_list (by assumption) (Nat.zero_le a) ha (fun c hc => (Memory.mem_clear hc).2)
      (Memory.wfFrom_clear hm)

/-- A write of a run of addresses that does not pass 2^32 keeps the canonical form. -/
theorem Memory.wf_writeBytes {m : Memory} {a : Nat} {bs : List Byte} (ha : a + bs.length ≤ 2 ^ 32)
    (hm : m.wf = true) : (m.writeBytes a bs).wf = true := by
  induction bs generalizing m a with
  | nil => exact hm
  | cons b bs ih =>
    simp only [List.length_cons] at ha
    exact ih (by omega) (Memory.wf_write b (by omega) hm)

/-- Writes none of which passes 2^32 keep the canonical form. -/
theorem Memory.wf_writeChunks {m : Memory} {cs : List (Nat × List Byte)}
    (hc : ∀ c ∈ cs, c.1 + c.2.length ≤ 2 ^ 32) (hm : m.wf = true) : (m.writeChunks cs).wf = true := by
  induction cs generalizing m with
  | nil => exact hm
  | cons c cs ih =>
    exact ih (fun c' h => hc c' (List.mem_cons_of_mem _ h))
      (Memory.wf_writeBytes (hc c List.mem_cons_self) hm)

end Sys2Proof.Machine
end

