-- ==== Sys2Proof/Laws/State.lean ====
section
/-! SUPPORT. What each named update of State does to each field, and to the accessors: one lemma per field per update. -/

namespace Sys2Proof.Machine

/-! ### `writeV` -/

@[simp] theorem State.writeV_inst (s : State) (k : Reg) (x : VectorWord) :
    (s.writeV k x).inst = s.inst := rfl
@[simp] theorem State.writeV_v (s : State) (k : Reg) (x : VectorWord) :
    (s.writeV k x).v = s.v.set k.val x := rfl
@[simp] theorem State.writeV_vw (s : State) (k : Reg) (x : VectorWord) :
    (s.writeV k x).vw = s.vw.set k.val true := rfl
@[simp] theorem State.writeV_pc (s : State) (k : Reg) (x : VectorWord) :
    (s.writeV k x).pc = s.pc := rfl
@[simp] theorem State.writeV_cmds (s : State) (k : Reg) (x : VectorWord) :
    (s.writeV k x).cmds = s.cmds := rfl
@[simp] theorem State.writeV_hs (s : State) (k : Reg) (x : VectorWord) :
    (s.writeV k x).hs = s.hs := rfl
@[simp] theorem State.writeV_sts (s : State) (k : Reg) (x : VectorWord) :
    (s.writeV k x).sts = s.sts := rfl
@[simp] theorem State.writeV_hr (s : State) (k : Reg) (x : VectorWord) :
    (s.writeV k x).hr = s.hr := rfl
@[simp] theorem State.writeV_str (s : State) (k : Reg) (x : VectorWord) :
    (s.writeV k x).str = s.str := rfl
@[simp] theorem State.writeV_status (s : State) (k : Reg) (x : VectorWord) :
    (s.writeV k x).status = s.status := rfl
@[simp] theorem State.writeV_faultCmd (s : State) (k : Reg) (x : VectorWord) :
    (s.writeV k x).faultCmd = s.faultCmd := rfl
@[simp] theorem State.writeV_faultPc (s : State) (k : Reg) (x : VectorWord) :
    (s.writeV k x).faultPc = s.faultPc := rfl
@[simp] theorem State.writeV_faultAddr (s : State) (k : Reg) (x : VectorWord) :
    (s.writeV k x).faultAddr = s.faultAddr := rfl
@[simp] theorem State.writeV_mem (s : State) (k : Reg) (x : VectorWord) :
    (s.writeV k x).mem = s.mem := rfl
@[simp] theorem State.writeV_lanesOf (s : State) (k : Reg) (x : VectorWord) :
    (s.writeV k x).lanesOf = s.lanesOf := rfl
@[simp] theorem State.writeV_halted (s : State) (k : Reg) (x : VectorWord) :
    (s.writeV k x).halted = s.halted := rfl
@[simp] theorem State.writeV_header (s : State) (k : Reg) (x : VectorWord) :
    (s.writeV k x).header = s.header := rfl
@[simp] theorem State.writeV_admits (s : State) (k : Reg) (x : VectorWord) (base size : Nat) :
    (s.writeV k x).admits base size = s.admits base size := rfl
@[simp] theorem State.writeV_admitLanes (s : State) (k : Reg) (x : VectorWord) (base size : Nat) :
    (s.writeV k x).admitLanes base size = s.admitLanes base size := rfl

/-! ### `putSha` -/

@[simp] theorem State.putSha_inst (s : State) (h : Hash8 VectorWord) (st : EngineStatus) :
    (s.putSha h st).inst = s.inst := rfl
@[simp] theorem State.putSha_v (s : State) (h : Hash8 VectorWord) (st : EngineStatus) :
    (s.putSha h st).v = s.v := rfl
@[simp] theorem State.putSha_vw (s : State) (h : Hash8 VectorWord) (st : EngineStatus) :
    (s.putSha h st).vw = s.vw := rfl
@[simp] theorem State.putSha_pc (s : State) (h : Hash8 VectorWord) (st : EngineStatus) :
    (s.putSha h st).pc = s.pc := rfl
@[simp] theorem State.putSha_cmds (s : State) (h : Hash8 VectorWord) (st : EngineStatus) :
    (s.putSha h st).cmds = s.cmds := rfl
@[simp] theorem State.putSha_hs (s : State) (h : Hash8 VectorWord) (st : EngineStatus) :
    (s.putSha h st).hs = h := rfl
@[simp] theorem State.putSha_sts (s : State) (h : Hash8 VectorWord) (st : EngineStatus) :
    (s.putSha h st).sts = st := rfl
@[simp] theorem State.putSha_hr (s : State) (h : Hash8 VectorWord) (st : EngineStatus) :
    (s.putSha h st).hr = s.hr := rfl
@[simp] theorem State.putSha_str (s : State) (h : Hash8 VectorWord) (st : EngineStatus) :
    (s.putSha h st).str = s.str := rfl
@[simp] theorem State.putSha_status (s : State) (h : Hash8 VectorWord) (st : EngineStatus) :
    (s.putSha h st).status = s.status := rfl
@[simp] theorem State.putSha_faultCmd (s : State) (h : Hash8 VectorWord) (st : EngineStatus) :
    (s.putSha h st).faultCmd = s.faultCmd := rfl
@[simp] theorem State.putSha_faultPc (s : State) (h : Hash8 VectorWord) (st : EngineStatus) :
    (s.putSha h st).faultPc = s.faultPc := rfl
@[simp] theorem State.putSha_faultAddr (s : State) (h : Hash8 VectorWord) (st : EngineStatus) :
    (s.putSha h st).faultAddr = s.faultAddr := rfl
@[simp] theorem State.putSha_mem (s : State) (h : Hash8 VectorWord) (st : EngineStatus) :
    (s.putSha h st).mem = s.mem := rfl
@[simp] theorem State.putSha_lanesOf (s : State) (h : Hash8 VectorWord) (st : EngineStatus) :
    (s.putSha h st).lanesOf = s.lanesOf := rfl
@[simp] theorem State.putSha_halted (s : State) (h : Hash8 VectorWord) (st : EngineStatus) :
    (s.putSha h st).halted = s.halted := rfl
@[simp] theorem State.putSha_header (s : State) (h : Hash8 VectorWord) (st : EngineStatus) :
    (s.putSha h st).header = s.header := rfl
@[simp] theorem State.putSha_readV (s : State) (h : Hash8 VectorWord) (st : EngineStatus) (j : Reg) :
    (s.putSha h st).readV j = s.readV j := rfl
@[simp] theorem State.putSha_written (s : State) (h : Hash8 VectorWord) (st : EngineStatus) (j : Reg) :
    (s.putSha h st).written j = s.written j := rfl
@[simp] theorem State.putSha_admits (s : State) (h : Hash8 VectorWord) (st : EngineStatus) (base size : Nat) :
    (s.putSha h st).admits base size = s.admits base size := rfl
@[simp] theorem State.putSha_admitLanes (s : State) (h : Hash8 VectorWord) (st : EngineStatus) (base size : Nat) :
    (s.putSha h st).admitLanes base size = s.admitLanes base size := rfl

/-! ### `putRmd` -/

@[simp] theorem State.putRmd_inst (s : State) (h : Hash5 VectorWord) (st : EngineStatus) :
    (s.putRmd h st).inst = s.inst := rfl
@[simp] theorem State.putRmd_v (s : State) (h : Hash5 VectorWord) (st : EngineStatus) :
    (s.putRmd h st).v = s.v := rfl
@[simp] theorem State.putRmd_vw (s : State) (h : Hash5 VectorWord) (st : EngineStatus) :
    (s.putRmd h st).vw = s.vw := rfl
@[simp] theorem State.putRmd_pc (s : State) (h : Hash5 VectorWord) (st : EngineStatus) :
    (s.putRmd h st).pc = s.pc := rfl
@[simp] theorem State.putRmd_cmds (s : State) (h : Hash5 VectorWord) (st : EngineStatus) :
    (s.putRmd h st).cmds = s.cmds := rfl
@[simp] theorem State.putRmd_hs (s : State) (h : Hash5 VectorWord) (st : EngineStatus) :
    (s.putRmd h st).hs = s.hs := rfl
@[simp] theorem State.putRmd_sts (s : State) (h : Hash5 VectorWord) (st : EngineStatus) :
    (s.putRmd h st).sts = s.sts := rfl
@[simp] theorem State.putRmd_hr (s : State) (h : Hash5 VectorWord) (st : EngineStatus) :
    (s.putRmd h st).hr = h := rfl
@[simp] theorem State.putRmd_str (s : State) (h : Hash5 VectorWord) (st : EngineStatus) :
    (s.putRmd h st).str = st := rfl
@[simp] theorem State.putRmd_status (s : State) (h : Hash5 VectorWord) (st : EngineStatus) :
    (s.putRmd h st).status = s.status := rfl
@[simp] theorem State.putRmd_faultCmd (s : State) (h : Hash5 VectorWord) (st : EngineStatus) :
    (s.putRmd h st).faultCmd = s.faultCmd := rfl
@[simp] theorem State.putRmd_faultPc (s : State) (h : Hash5 VectorWord) (st : EngineStatus) :
    (s.putRmd h st).faultPc = s.faultPc := rfl
@[simp] theorem State.putRmd_faultAddr (s : State) (h : Hash5 VectorWord) (st : EngineStatus) :
    (s.putRmd h st).faultAddr = s.faultAddr := rfl
@[simp] theorem State.putRmd_mem (s : State) (h : Hash5 VectorWord) (st : EngineStatus) :
    (s.putRmd h st).mem = s.mem := rfl
@[simp] theorem State.putRmd_lanesOf (s : State) (h : Hash5 VectorWord) (st : EngineStatus) :
    (s.putRmd h st).lanesOf = s.lanesOf := rfl
@[simp] theorem State.putRmd_halted (s : State) (h : Hash5 VectorWord) (st : EngineStatus) :
    (s.putRmd h st).halted = s.halted := rfl
@[simp] theorem State.putRmd_header (s : State) (h : Hash5 VectorWord) (st : EngineStatus) :
    (s.putRmd h st).header = s.header := rfl
@[simp] theorem State.putRmd_readV (s : State) (h : Hash5 VectorWord) (st : EngineStatus) (j : Reg) :
    (s.putRmd h st).readV j = s.readV j := rfl
@[simp] theorem State.putRmd_written (s : State) (h : Hash5 VectorWord) (st : EngineStatus) (j : Reg) :
    (s.putRmd h st).written j = s.written j := rfl
@[simp] theorem State.putRmd_admits (s : State) (h : Hash5 VectorWord) (st : EngineStatus) (base size : Nat) :
    (s.putRmd h st).admits base size = s.admits base size := rfl
@[simp] theorem State.putRmd_admitLanes (s : State) (h : Hash5 VectorWord) (st : EngineStatus) (base size : Nat) :
    (s.putRmd h st).admitLanes base size = s.admitLanes base size := rfl

/-! ### `putMem` -/

@[simp] theorem State.putMem_inst (s : State) (m : Memory) :
    (s.putMem m).inst = s.inst := rfl
@[simp] theorem State.putMem_v (s : State) (m : Memory) :
    (s.putMem m).v = s.v := rfl
@[simp] theorem State.putMem_vw (s : State) (m : Memory) :
    (s.putMem m).vw = s.vw := rfl
@[simp] theorem State.putMem_pc (s : State) (m : Memory) :
    (s.putMem m).pc = s.pc := rfl
@[simp] theorem State.putMem_cmds (s : State) (m : Memory) :
    (s.putMem m).cmds = s.cmds := rfl
@[simp] theorem State.putMem_hs (s : State) (m : Memory) :
    (s.putMem m).hs = s.hs := rfl
@[simp] theorem State.putMem_sts (s : State) (m : Memory) :
    (s.putMem m).sts = s.sts := rfl
@[simp] theorem State.putMem_hr (s : State) (m : Memory) :
    (s.putMem m).hr = s.hr := rfl
@[simp] theorem State.putMem_str (s : State) (m : Memory) :
    (s.putMem m).str = s.str := rfl
@[simp] theorem State.putMem_status (s : State) (m : Memory) :
    (s.putMem m).status = s.status := rfl
@[simp] theorem State.putMem_faultCmd (s : State) (m : Memory) :
    (s.putMem m).faultCmd = s.faultCmd := rfl
@[simp] theorem State.putMem_faultPc (s : State) (m : Memory) :
    (s.putMem m).faultPc = s.faultPc := rfl
@[simp] theorem State.putMem_faultAddr (s : State) (m : Memory) :
    (s.putMem m).faultAddr = s.faultAddr := rfl
@[simp] theorem State.putMem_mem (s : State) (m : Memory) :
    (s.putMem m).mem = m := rfl
@[simp] theorem State.putMem_lanesOf (s : State) (m : Memory) :
    (s.putMem m).lanesOf = s.lanesOf := rfl
@[simp] theorem State.putMem_halted (s : State) (m : Memory) :
    (s.putMem m).halted = s.halted := rfl
@[simp] theorem State.putMem_header (s : State) (m : Memory) :
    (s.putMem m).header = s.header := rfl
@[simp] theorem State.putMem_readV (s : State) (m : Memory) (j : Reg) :
    (s.putMem m).readV j = s.readV j := rfl
@[simp] theorem State.putMem_written (s : State) (m : Memory) (j : Reg) :
    (s.putMem m).written j = s.written j := rfl
@[simp] theorem State.putMem_admits (s : State) (m : Memory) (base size : Nat) :
    (s.putMem m).admits base size = s.admits base size := rfl
@[simp] theorem State.putMem_admitLanes (s : State) (m : Memory) (base size : Nat) :
    (s.putMem m).admitLanes base size = s.admitLanes base size := rfl

/-! ### `retire` -/

@[simp] theorem State.retire_inst (s : State) (n : Nat) :
    (s.retire n).inst = s.inst := rfl
@[simp] theorem State.retire_v (s : State) (n : Nat) :
    (s.retire n).v = s.v := rfl
@[simp] theorem State.retire_vw (s : State) (n : Nat) :
    (s.retire n).vw = s.vw := rfl
@[simp] theorem State.retire_pc (s : State) (n : Nat) :
    (s.retire n).pc = s.pc + BitVec.ofNat 32 n := rfl
@[simp] theorem State.retire_cmds (s : State) (n : Nat) :
    (s.retire n).cmds = s.cmds.drop n := rfl
@[simp] theorem State.retire_hs (s : State) (n : Nat) :
    (s.retire n).hs = s.hs := rfl
@[simp] theorem State.retire_sts (s : State) (n : Nat) :
    (s.retire n).sts = s.sts := rfl
@[simp] theorem State.retire_hr (s : State) (n : Nat) :
    (s.retire n).hr = s.hr := rfl
@[simp] theorem State.retire_str (s : State) (n : Nat) :
    (s.retire n).str = s.str := rfl
@[simp] theorem State.retire_status (s : State) (n : Nat) :
    (s.retire n).status = s.status := rfl
@[simp] theorem State.retire_faultCmd (s : State) (n : Nat) :
    (s.retire n).faultCmd = s.faultCmd := rfl
@[simp] theorem State.retire_faultPc (s : State) (n : Nat) :
    (s.retire n).faultPc = s.faultPc := rfl
@[simp] theorem State.retire_faultAddr (s : State) (n : Nat) :
    (s.retire n).faultAddr = s.faultAddr := rfl
@[simp] theorem State.retire_mem (s : State) (n : Nat) :
    (s.retire n).mem = s.mem := rfl
@[simp] theorem State.retire_lanesOf (s : State) (n : Nat) :
    (s.retire n).lanesOf = s.lanesOf := rfl
@[simp] theorem State.retire_halted (s : State) (n : Nat) :
    (s.retire n).halted = s.halted := rfl
@[simp] theorem State.retire_readV (s : State) (n : Nat) (j : Reg) :
    (s.retire n).readV j = s.readV j := rfl
@[simp] theorem State.retire_written (s : State) (n : Nat) (j : Reg) :
    (s.retire n).written j = s.written j := rfl
@[simp] theorem State.retire_admits (s : State) (n : Nat) (base size : Nat) :
    (s.retire n).admits base size = s.admits base size := rfl
@[simp] theorem State.retire_admitLanes (s : State) (n : Nat) (base size : Nat) :
    (s.retire n).admitLanes base size = s.admitLanes base size := rfl

/-! ### `takeFault` -/

@[simp] theorem State.takeFault_inst (s : State) (c : Cause) (addr : Word) :
    (s.takeFault c addr).inst = s.inst := rfl
@[simp] theorem State.takeFault_v (s : State) (c : Cause) (addr : Word) :
    (s.takeFault c addr).v = s.v := rfl
@[simp] theorem State.takeFault_vw (s : State) (c : Cause) (addr : Word) :
    (s.takeFault c addr).vw = s.vw := rfl
@[simp] theorem State.takeFault_pc (s : State) (c : Cause) (addr : Word) :
    (s.takeFault c addr).pc = s.pc := rfl
@[simp] theorem State.takeFault_cmds (s : State) (c : Cause) (addr : Word) :
    (s.takeFault c addr).cmds = s.cmds := rfl
@[simp] theorem State.takeFault_hs (s : State) (c : Cause) (addr : Word) :
    (s.takeFault c addr).hs = s.hs := rfl
@[simp] theorem State.takeFault_sts (s : State) (c : Cause) (addr : Word) :
    (s.takeFault c addr).sts = s.sts := rfl
@[simp] theorem State.takeFault_hr (s : State) (c : Cause) (addr : Word) :
    (s.takeFault c addr).hr = s.hr := rfl
@[simp] theorem State.takeFault_str (s : State) (c : Cause) (addr : Word) :
    (s.takeFault c addr).str = s.str := rfl
@[simp] theorem State.takeFault_status (s : State) (c : Cause) (addr : Word) :
    (s.takeFault c addr).status = statusWord c := rfl
@[simp] theorem State.takeFault_faultCmd (s : State) (c : Cause) (addr : Word) :
    (s.takeFault c addr).faultCmd = s.header := rfl
@[simp] theorem State.takeFault_faultPc (s : State) (c : Cause) (addr : Word) :
    (s.takeFault c addr).faultPc = s.pc := rfl
@[simp] theorem State.takeFault_faultAddr (s : State) (c : Cause) (addr : Word) :
    (s.takeFault c addr).faultAddr = addr := rfl
@[simp] theorem State.takeFault_mem (s : State) (c : Cause) (addr : Word) :
    (s.takeFault c addr).mem = s.mem := rfl
@[simp] theorem State.takeFault_lanesOf (s : State) (c : Cause) (addr : Word) :
    (s.takeFault c addr).lanesOf = s.lanesOf := rfl
@[simp] theorem State.takeFault_header (s : State) (c : Cause) (addr : Word) :
    (s.takeFault c addr).header = s.header := rfl
@[simp] theorem State.takeFault_readV (s : State) (c : Cause) (addr : Word) (j : Reg) :
    (s.takeFault c addr).readV j = s.readV j := rfl
@[simp] theorem State.takeFault_written (s : State) (c : Cause) (addr : Word) (j : Reg) :
    (s.takeFault c addr).written j = s.written j := rfl
@[simp] theorem State.takeFault_admits (s : State) (c : Cause) (addr : Word) (base size : Nat) :
    (s.takeFault c addr).admits base size = s.admits base size := rfl
@[simp] theorem State.takeFault_admitLanes (s : State) (c : Cause) (addr : Word) (base size : Nat) :
    (s.takeFault c addr).admitLanes base size = s.admitLanes base size := rfl

/-! ### Reading a register after a write, and the fault flag after a fault -/

theorem State.writeV_readV (s : State) (k j : Reg) (x : VectorWord) :
    (s.writeV k x).readV j = if j = k then x else s.readV j := by
  simp only [State.readV, State.writeV_v, Vector.getElem_set, Fin.ext_iff, eq_comm]

theorem State.writeV_written (s : State) (k j : Reg) (x : VectorWord) :
    (s.writeV k x).written j = (decide (j = k) || s.written j) := by
  simp only [State.written, State.writeV_vw, Vector.getElem_set, Fin.ext_iff]
  by_cases h : (k : Nat) = j
  · simp [h]
  · simp [h, Ne.symm h]

@[simp] theorem State.writeV_readV_self (s : State) (k : Reg) (x : VectorWord) :
    (s.writeV k x).readV k = x := by
  simp [State.writeV_readV]

@[simp] theorem State.writeV_written_self (s : State) (k : Reg) (x : VectorWord) :
    (s.writeV k x).written k = true := by
  simp [State.writeV_written]

@[simp] theorem faultFlag_statusWord (c : Cause) : faultFlag (statusWord c) = true := by
  cases c <;> decide

@[simp] theorem causeField_statusWord (c : Cause) : causeField (statusWord c) = causeCode c := by
  cases c <;> decide

/-- The reserved bits of STATUS read 0 (10_state.md R37). -/
@[simp] theorem statusWord_reserved (c : Cause) : (statusWord c).extractLsb' 4 28 = 0#28 := by
  cases c <;> decide

/-- A fault taken leaves the engine halted (60_exceptions.md R304, R306). -/
@[simp] theorem State.takeFault_halted (s : State) (c : Cause) (addr : Word) :
    (s.takeFault c addr).halted = true := by
  simp [State.halted]

/-- The status word of a fault is never 0 (10_state.md R37: bit 0 is FAULT). -/
theorem statusWord_ne_zero (c : Cause) : statusWord c ≠ 0#32 := by
  cases c <;> decide

theorem State.raise_eq (s : State) (c : Cause) (addr : Word) :
    s.raise c addr = .next (s.takeFault c addr) := rfl

end Sys2Proof.Machine
end

