-- ==== Sys2Proof/Laws/Operands.lean ====
section
/-! SUPPORT. Admission, lanes, and the writes a SAVE makes: one lemma per shared operation. -/

namespace Sys2Proof.Machine

/-! ### Admission -/

theorem memAdmit_cons (r : Region) (rs : List Region) (a : Nat) :
    memAdmit (r :: rs) a = true ↔ (r.base ≤ a ∧ a < r.base + r.size) ∨ memAdmit rs a = true := by
  simp [memAdmit]

/-- The fast check says what the clear one does: every address of the range is admitted (00_scope.md R16). -/
theorem covered_iff (lo hi : Nat) (rs : List Region) :
    covered lo hi rs = true ↔ ∀ a, lo ≤ a → a < hi → memAdmit rs a = true := by
  induction rs generalizing lo hi with
  | nil =>
    simp only [covered, decide_eq_true_eq, memAdmit, List.any_nil]
    refine ⟨fun h a h1 h2 => by omega, fun h => ?_⟩
    by_contra hlt
    exact absurd (h lo le_rfl (by omega)) (by simp)
  | cons r rs ih =>
    simp only [covered]
    split
    · simp only [true_iff]
      intro a h1 h2
      omega
    · rw [Bool.and_eq_true, ih, ih]
      constructor
      · rintro ⟨hl, hr⟩ a h1 h2
        rw [memAdmit_cons]
        by_cases hb : a < r.base
        · exact .inr (hl a h1 (by omega))
        · by_cases he : a < r.base + r.size
          · exact .inl ⟨by omega, he⟩
          · exact .inr (hr a (by omega) h2)
      · intro h
        refine ⟨fun a h1 h2 => ?_, fun a h1 h2 => ?_⟩
        · rcases (memAdmit_cons r rs a).1 (h a h1 (by omega)) with hin | hin
          · omega
          · exact hin
        · rcases (memAdmit_cons r rs a).1 (h a (by omega) h2) with hin | hin
          · omega
          · exact hin

theorem State.admits_iff (s : State) (addr n : Nat) :
    s.admits addr n = true ↔
      addr + n ≤ 2 ^ 32 ∧ ∀ a, addr ≤ a → a < addr + n → memAdmit s.inst.admitted a = true := by
  rw [State.admits, Bool.and_eq_true, decide_eq_true_eq, covered_iff]

/-- Part of an admitted range is admitted. -/
theorem State.admits_part {s : State} {addr n addr' n' : Nat} (h : s.admits addr n = true) (h1 : addr ≤ addr')
    (h2 : addr' + n' ≤ addr + n) : s.admits addr' n' = true := by
  rw [State.admits_iff] at h ⊢
  exact ⟨by omega, fun a h3 h4 => h.2 a (by omega) (by omega)⟩

theorem State.admitLanes_iff (s : State) (base stride : Nat) :
    s.admitLanes base stride = true ↔ ∀ i, i < s.lanesOf → s.admits (base + stride * i) 4 = true := by
  simp [State.admitLanes]

/-! ### Lanes -/

theorem lanesOf_pos (s : State) : 0 < s.lanesOf := by
  simp only [State.lanesOf]
  cases s.inst.width <;> decide

@[simp] theorem length_lanes (w : Nat) (f : Nat → Word) : (lanes w f).length = w := by
  simp [lanes]

theorem lane_lanes (w : Nat) (f : Nat → Word) (i : Nat) (h : i < w) : lane (lanes w f) i = f i := by
  simp [lane, lanes, h]

/-- Two VectorWords of one length with equal lanes are equal. -/
theorem lanes_ext {x y : VectorWord} (hl : x.length = y.length) (h : ∀ i, i < x.length → lane x i = lane y i) :
    x = y := by
  refine List.ext_getElem hl fun i h1 h2 => ?_
  have := h i h1
  simpa [lane, h1, h2] using this

theorem Hash8.lane_ofLanes (f : Nat → Hash8 Word) (w i : Nat) (h : i < w) :
    (Hash8.ofLanes ((List.range w).map f)).lane i = f i := by
  simp [Hash8.ofLanes, Hash8.lane, Hash8.map, Sys2Proof.Machine.lane, h]

theorem Hash5.lane_ofLanes (f : Nat → Hash5 Word) (w i : Nat) (h : i < w) :
    (Hash5.ofLanes ((List.range w).map f)).lane i = f i := by
  simp [Hash5.ofLanes, Hash5.lane, Hash5.map, Sys2Proof.Machine.lane, h]

/-! ### The writes of a SAVE -/

@[simp] theorem length_encWord (bo : ByteOrder) (x : Word) : (encWord bo x).length = 4 := by
  cases bo <;> rfl

theorem mem_saveChunks {bo : ByteOrder} {w addr stride : Nat} {x : VectorWord} {c : Nat × List Byte} :
    c ∈ saveChunks bo w addr stride x ↔
      ∃ i, i < w ∧ c = (addr + stride * i, encWord bo (lane x i)) := by
  simp [saveChunks, eq_comm]

theorem mem_digestChunks {bo : ByteOrder} {w out size : Nat} {xs : List VectorWord} {c : Nat × List Byte} :
    c ∈ digestChunks bo w out size xs ↔
      ∃ (j : Nat) (h : j < xs.length) (i : Nat), i < w ∧
        c = (out + 4 * j + size * i, encWord bo (lane xs[j] i)) := by
  simp only [digestChunks, List.mem_flatMap, mem_saveChunks, List.mem_zipIdx_iff_getElem?]
  constructor
  · rintro ⟨p, hp, i, hi, rfl⟩
    obtain ⟨hj, hx⟩ := List.getElem?_eq_some_iff.1 hp
    exact ⟨p.2, hj, i, hi, by rw [hx]⟩
  · rintro ⟨j, hj, i, hi, rfl⟩
    exact ⟨(xs[j], j), by simp [hj], i, hi, rfl⟩

/-- Every write of a digest lies in the digest buffer `[out, out + size·W)` (20_memory.md R70). -/
theorem digestChunks_inside {bo : ByteOrder} {w out size : Nat} {xs : List VectorWord}
    (hs : 4 * xs.length ≤ size) {c : Nat × List Byte} (hc : c ∈ digestChunks bo w out size xs) :
    out ≤ c.1 ∧ c.1 + c.2.length ≤ out + size * w := by
  obtain ⟨j, hj, i, hi, rfl⟩ := mem_digestChunks.1 hc
  have h1 : size * i + size ≤ size * w := by
    rw [← Nat.mul_succ]
    exact Nat.mul_le_mul_left _ hi
  simp only [length_encWord]
  omega

end Sys2Proof.Machine
end

