-- ==== Sys2Proof/Laws/Commands.lean ====
section
/-! SUPPORT. What each shared operation of the meanings can do, and from them what any command can do. A proof cites these
and unfolds no meaning. -/

namespace Sys2Proof.Machine

/-! ### The shared operations -/

theorem aluTwo_unwritten {d a b : Reg} {f : Word → Word → Word} {s : State}
    (h : s.written a = false ∨ s.written b = false) :
    aluTwo d a b f s = .next (s.takeFault .unwritten 0) := by
  rcases h with h | h
  · simp [aluTwo, h, State.raise_eq]
  · simp [aluTwo, h, State.raise_eq]

theorem aluTwo_written {d a b : Reg} {f : Word → Word → Word} {s : State}
    (ha : s.written a = true) (hb : s.written b = true) :
    aluTwo d a b f s = .next ((s.writeV d
      (lanes s.lanesOf fun i => f (lane (s.readV a) i) (lane (s.readV b) i))).retire 1) := by
  simp [aluTwo, ha, hb]

theorem aluOne_unwritten {d a : Reg} {f : Word → Word} {s : State} (h : s.written a = false) :
    aluOne d a f s = .next (s.takeFault .unwritten 0) := by
  simp [aluOne, h, State.raise_eq]

theorem aluOne_written {d a : Reg} {f : Word → Word} {s : State} (h : s.written a = true) :
    aluOne d a f s =
      .next ((s.writeV d (lanes s.lanesOf fun i => f (lane (s.readV a) i))).retire 1) := by
  simp [aluOne, h]

theorem engineBlock_active {addr : Word} {f : State → State} {s : State}
    (h : s.admits addr.toNat (64 * s.lanesOf) = true) :
    engineBlock .active addr f s = .next ((f s).retire 2) := by
  simp [engineBlock, h]

theorem engineSave_ready {st : EngineStatus} {out : Word} {size : Nat} {f : State → State} {s : State}
    (hst : st ≠ .uninit) (h : s.admits out.toNat (size * s.lanesOf) = true) :
    engineSave st out size f s = .next ((f s).retire 2) := by
  cases st <;> simp_all [engineSave]

theorem engineTrunk_admitted {out inp count : Word} {size : Nat} {f : State → State} {s : State}
    (hi : s.admits inp.toNat (64 * s.lanesOf * count.toNat) = true)
    (ho : s.admits out.toNat (size * s.lanesOf) = true) :
    engineTrunk out inp count size f s = .next ((f s).retire 4) := by
  simp [engineTrunk, hi, ho]

/-! ### What a command can do -/

/-- The effect of a command that takes no fault, but for `pc` and the command sequence: it writes one vector register,
or memory, or one engine's HashState and status and memory. -/
inductive Effect (s : State) : State → Prop where
  | vector (d : Reg) (x : VectorWord) (hx : x.length = s.lanesOf) : Effect s (s.writeV d x)
  | store (cs : List (Nat × List Byte)) (hc : ∀ c ∈ cs, c.1 + c.2.length ≤ 2 ^ 32) :
      Effect s (s.putMem (s.mem.writeChunks cs))
  | sha (cs : List (Nat × List Byte)) (h : Hash8 VectorWord) (st : EngineStatus)
      (hc : ∀ c ∈ cs, c.1 + c.2.length ≤ 2 ^ 32) (hst : st ≠ .uninit)
      (hh : h = s.hs ∧ s.sts ≠ .uninit ∨ ∀ x ∈ h.toList, x.length = s.lanesOf) :
      Effect s ((s.putMem (s.mem.writeChunks cs)).putSha h st)
  | rmd (cs : List (Nat × List Byte)) (h : Hash5 VectorWord) (st : EngineStatus)
      (hc : ∀ c ∈ cs, c.1 + c.2.length ≤ 2 ^ 32) (hst : st ≠ .uninit)
      (hh : h = s.hr ∧ s.str ≠ .uninit ∨ ∀ x ∈ h.toList, x.length = s.lanesOf) :
      Effect s ((s.putMem (s.mem.writeChunks cs)).putRmd h st)

/-- A command takes a fault, whose FAULT_ADDR is 0 but for ACCESS, or has its effect and consumes its packet. -/
def Completes (len : Nat) (s t : State) : Prop :=
  (∃ c addr, (addr = 0 ∨ c = .access) ∧ t = s.takeFault c addr) ∨ ∃ u, Effect s u ∧ t = u.retire len

theorem completes_fault {len : Nat} {s : State} (c : Cause) : Completes len s (s.takeFault c 0) :=
  .inl ⟨c, 0, .inl rfl, rfl⟩

theorem completes_access {len : Nat} {s : State} (addr : Word) : Completes len s (s.takeFault .access addr) :=
  .inl ⟨.access, addr, .inr rfl, rfl⟩

theorem aluTwo_cases (d a b : Reg) (f : Word → Word → Word) (s : State) :
    ∃ t, aluTwo d a b f s = .next t ∧ Completes 1 s t := by
  cases ha : s.written a
  · exact ⟨_, aluTwo_unwritten (.inl ha), completes_fault _⟩
  · cases hb : s.written b
    · exact ⟨_, aluTwo_unwritten (.inr hb), completes_fault _⟩
    · exact ⟨_, aluTwo_written ha hb, .inr ⟨_, .vector d _ (length_lanes _ _), rfl⟩⟩

theorem aluOne_cases (d a : Reg) (f : Word → Word) (s : State) :
    ∃ t, aluOne d a f s = .next t ∧ Completes 1 s t := by
  cases ha : s.written a
  · exact ⟨_, aluOne_unwritten ha, completes_fault _⟩
  · exact ⟨_, aluOne_written ha, .inr ⟨_, .vector d _ (length_lanes _ _), rfl⟩⟩

theorem engineBlock_cases (st : EngineStatus) (addr : Word) (f : State → State) (s : State)
    (hf : st = .active → s.admits addr.toNat (64 * s.lanesOf) = true → Effect s (f s)) :
    ∃ t, engineBlock st addr f s = .next t ∧ Completes 2 s t := by
  cases st
  · exact ⟨_, rfl, completes_fault _⟩
  · cases h : s.admits addr.toNat (64 * s.lanesOf)
    · exact ⟨_, by simp [engineBlock, h, State.raise_eq], completes_access addr⟩
    · exact ⟨_, engineBlock_active h, .inr ⟨_, hf rfl h, rfl⟩⟩
  · exact ⟨_, rfl, completes_fault _⟩

theorem engineSave_cases (st : EngineStatus) (out : Word) (size : Nat) (f : State → State) (s : State)
    (hf : st ≠ .uninit → s.admits out.toNat (size * s.lanesOf) = true → Effect s (f s)) :
    ∃ t, engineSave st out size f s = .next t ∧ Completes 2 s t := by
  cases h : s.admits out.toNat (size * s.lanesOf)
  · cases st
    · exact ⟨_, rfl, completes_fault _⟩
    all_goals exact ⟨_, by simp [engineSave, h, State.raise_eq], completes_access out⟩
  · by_cases hst : st = .uninit
    · subst hst
      exact ⟨_, rfl, completes_fault _⟩
    · exact ⟨_, engineSave_ready hst h, .inr ⟨_, hf hst h, rfl⟩⟩

theorem engineTrunk_cases (out inp count : Word) (size : Nat) (f : State → State) (s : State)
    (hf : s.admits out.toNat (size * s.lanesOf) = true → Effect s (f s)) :
    ∃ t, engineTrunk out inp count size f s = .next t ∧ Completes 4 s t := by
  cases hi : s.admits inp.toNat (64 * s.lanesOf * count.toNat)
  · exact ⟨_, by simp [engineTrunk, hi, State.raise_eq], completes_access inp⟩
  · cases ho : s.admits out.toNat (size * s.lanesOf)
    · exact ⟨_, by simp [engineTrunk, hi, ho, State.raise_eq], completes_access out⟩
    · exact ⟨_, engineTrunk_admitted hi ho, .inr ⟨_, hf ho, rfl⟩⟩

theorem Hash8.length_ofLanes (l : List (Hash8 Word)) : ∀ x ∈ (Hash8.ofLanes l).toList, x.length = l.length := by
  simp [Hash8.ofLanes, Hash8.toList]

theorem Hash5.length_ofLanes (l : List (Hash5 Word)) : ∀ x ∈ (Hash5.ofLanes l).toList, x.length = l.length := by
  simp [Hash5.ofLanes, Hash5.toList]

theorem length_shaGroup (w : Nat) (m : Memory) (base : Nat) (x : Hash8 VectorWord) :
    ∀ y ∈ (shaGroup w m base x).toList, y.length = w := by
  intro y hy
  simpa using Hash8.length_ofLanes _ y hy

theorem length_rmdGroup (w : Nat) (m : Memory) (base : Nat) (x : Hash5 VectorWord) :
    ∀ y ∈ (rmdGroup w m base x).toList, y.length = w := by
  intro y hy
  simpa using Hash5.length_ofLanes _ y hy

theorem length_shaTrunkState (w : Nat) (m : Memory) (inp count : Nat) :
    ∀ y ∈ (shaTrunkState w m inp count).toList, y.length = w := by
  cases count with
  | zero => simp [shaTrunkState, rounds, shaIvLanes, Hash8.map, Hash8.toList]
  | succ n => exact length_shaGroup _ _ _ _

theorem length_rmdTrunkState (w : Nat) (m : Memory) (inp count : Nat) :
    ∀ y ∈ (rmdTrunkState w m inp count).toList, y.length = w := by
  cases count with
  | zero => simp [rmdTrunkState, rounds, rmdIvLanes, Hash5.map, Hash5.toList]
  | succ n => exact length_rmdGroup _ _ _ _

theorem shaFinish_effect {s : State} {out : Nat} {h : Hash8 VectorWord}
    (ha : s.admits out (32 * s.lanesOf) = true)
    (hh : h = s.hs ∧ s.sts ≠ .uninit ∨ ∀ x ∈ h.toList, x.length = s.lanesOf) : Effect s (shaFinish out h s) := by
  refine .sha _ h .final (fun c hc => ?_) (by decide) hh
  have := digestChunks_inside (size := 32) (by simp [Hash8.toList]) hc
  have := ((State.admits_iff _ _ _).1 ha).1
  omega

theorem rmdFinish_effect {s : State} {out : Nat} {h : Hash5 VectorWord}
    (ha : s.admits out (20 * s.lanesOf) = true)
    (hh : h = s.hr ∧ s.str ≠ .uninit ∨ ∀ x ∈ h.toList, x.length = s.lanesOf) : Effect s (rmdFinish out h s) := by
  refine .rmd _ h .final (fun c hc => ?_) (by decide) hh
  have := digestChunks_inside (size := 20) (by simp [Hash5.toList]) hc
  have := ((State.admits_iff _ _ _).1 ha).1
  omega

/-- What any command can do: answer a next state, in which it took a fault, or had its effect and consumed its packet. -/
theorem exec_cases (i : Instr) (s : State) :
    ∃ t, exec i s = .next t ∧ Completes (packetLength i.opcode) s t := by
  cases i with
  | mirror d imm => exact ⟨_, rfl, .inr ⟨_, .vector d _ (length_lanes _ _), rfl⟩⟩
  | add d a b => exact aluTwo_cases d a b (fun x y => x + y) s
  | xor d a b => exact aluTwo_cases d a b (fun x y => x ^^^ y) s
  | or d a b => exact aluTwo_cases d a b (fun x y => x ||| y) s
  | and d a b => exact aluTwo_cases d a b (fun x y => x &&& y) s
  | andn d a b => exact aluTwo_cases d a b (fun x y => ~~~x &&& y) s
  | shl d a n => exact aluOne_cases d a (fun x => shl32 x n.toNat) s
  | shr d a n => exact aluOne_cases d a (fun x => shr32 x n.toNat) s
  | rotl d a n =>
    by_cases h : n = 0
    · exact ⟨_, if_pos h, completes_fault .illegal⟩
    · obtain ⟨t, ht, hc⟩ := aluOne_cases d a (fun x => rotl32 x n.toNat) s
      exact ⟨t, (if_neg h).trans ht, hc⟩
  | load v bo addr =>
    simp only [exec, execLoad]
    split
    · exact ⟨_, rfl, .inr ⟨_, .vector v _ (length_lanes _ _), rfl⟩⟩
    · exact ⟨_, rfl, completes_access addr⟩
  | save v bo recSize addr =>
    simp only [exec, execSave]
    split
    · exact ⟨_, rfl, completes_fault _⟩
    · split
      · exact ⟨_, rfl, completes_fault _⟩
      · split
        · rename_i hadm
          refine ⟨_, rfl, .inr ⟨_, .store _ fun c hc => ?_, rfl⟩⟩
          obtain ⟨i, hi, rfl⟩ := mem_saveChunks.1 hc
          have := ((State.admits_iff _ _ _).1 ((State.admitLanes_iff _ _ _).1 hadm i hi)).1
          simpa using this
        · exact ⟨_, rfl, completes_access addr⟩
  | shaInit =>
    refine ⟨_, rfl, .inr ⟨_, .sha [] _ .active (by simp) (by decide) (.inr ?_), rfl⟩⟩
    simp [shaIvLanes, Hash8.map, Hash8.toList]
  | shaBlock addr =>
    exact engineBlock_cases s.sts addr
      (fun s => s.putSha (shaGroup s.lanesOf s.mem addr.toNat s.hs) .active) s fun _ _ =>
        .sha [] _ .active (by simp) (by decide) (.inr (length_shaGroup _ _ _ _))
  | shaSave out =>
    exact engineSave_cases s.sts out 32 (fun s => shaFinish out.toNat s.hs s) s fun hst ha =>
      shaFinish_effect ha (.inl ⟨rfl, hst⟩)
  | shaTrunk out inp count =>
    exact engineTrunk_cases out inp count 32
      (fun s => shaFinish out.toNat (shaTrunkState s.lanesOf s.mem inp.toNat count.toNat) s) s fun ha =>
        shaFinish_effect ha (.inr (length_shaTrunkState _ _ _ _))
  | rmdInit =>
    refine ⟨_, rfl, .inr ⟨_, .rmd [] _ .active (by simp) (by decide) (.inr ?_), rfl⟩⟩
    simp [rmdIvLanes, Hash5.map, Hash5.toList]
  | rmdBlock addr =>
    exact engineBlock_cases s.str addr
      (fun s => s.putRmd (rmdGroup s.lanesOf s.mem addr.toNat s.hr) .active) s fun _ _ =>
        .rmd [] _ .active (by simp) (by decide) (.inr (length_rmdGroup _ _ _ _))
  | rmdSave out =>
    exact engineSave_cases s.str out 20 (fun s => rmdFinish out.toNat s.hr s) s fun hst ha =>
      rmdFinish_effect ha (.inl ⟨rfl, hst⟩)
  | rmdTrunk out inp count =>
    exact engineTrunk_cases out inp count 20
      (fun s => rmdFinish out.toNat (rmdTrunkState s.lanesOf s.mem inp.toNat count.toNat) s) s fun ha =>
        rmdFinish_effect ha (.inr (length_rmdTrunkState _ _ _ _))

end Sys2Proof.Machine
end

