-- ==== Sys2Proof/Laws/Encoding.lean ====
section
/-! SUPPORT. The fields of a header read back from the four formats (30_encoding.md R91): what each accessor of the decoder
answers on what the encoder writes. -/

namespace Sys2Proof

theorem extract_placeField_same {k : Nat} (x : BitVec k) (lo : Nat) (h : lo + k ≤ 32) :
    (placeField x lo).extractLsb' lo k = x := by
  ext i hi
  simp only [placeField, BitVec.getElem_extractLsb', BitVec.getLsbD_shiftLeft, BitVec.getLsbD_setWidth,
    Nat.add_sub_cancel_left, BitVec.getLsbD_eq_getElem hi]
  simp only [show lo + i < 32 by omega, show ¬lo + i < lo by omega, show i < 32 by omega, decide_true,
    decide_false, Bool.not_false, Bool.true_and]

theorem extract_placeField_below {k n : Nat} (x : BitVec k) (lo at' : Nat) (h : lo + k ≤ at') :
    (placeField x lo).extractLsb' at' n = 0 := by
  ext i hi
  simp only [placeField, BitVec.getElem_extractLsb', BitVec.getLsbD_shiftLeft, BitVec.getLsbD_setWidth,
    BitVec.getLsbD_of_ge x (at' + i - lo) (by omega), Bool.and_false]
  simp

theorem extract_placeField_above {k n : Nat} (x : BitVec k) (lo at' : Nat) (h : at' + n ≤ lo) :
    (placeField x lo).extractLsb' at' n = 0 := by
  ext i hi
  simp only [placeField, BitVec.getElem_extractLsb', BitVec.getLsbD_shiftLeft, BitVec.getLsbD_setWidth,
    show at' + i < lo by omega, decide_true, Bool.not_true, Bool.and_false, Bool.false_and]
  simp

/-- The accessors on format R. -/
theorem fields_formatR (op : Opcode) (d a b : Reg) (n : BitVec 5) :
    hdrOp (formatR op d a b n) = opcodeBits op ∧ hdrD (formatR op d a b n) = d ∧
      hdrA (formatR op d a b n) = a ∧ hdrB (formatR op d a b n) = b ∧ hdrN (formatR op d a b n) = n ∧
      (formatR op d a b n).extractLsb' 0 6 = 0 := by
  simp [hdrOp, hdrD, hdrA, hdrB, hdrN, formatR, BitVec.extractLsb'_or, extract_placeField_same,
    extract_placeField_below, extract_placeField_above, regBits]

/-- The accessors on format I. -/
theorem fields_formatI (op : Opcode) (d : Reg) :
    hdrOp (formatI op d) = opcodeBits op ∧ hdrD (formatI op d) = d ∧ (formatI op d).extractLsb' 0 21 = 0 := by
  simp [hdrOp, hdrD, formatI, BitVec.extractLsb'_or, extract_placeField_same, extract_placeField_below,
    extract_placeField_above, regBits]

/-- The accessors on format M. -/
theorem fields_formatM (op : Opcode) (v : Reg) (bo : ByteOrder) (r : BitVec 12) :
    hdrOp (formatM op v bo r) = opcodeBits op ∧ hdrD (formatM op v bo r) = v ∧ hdrBo (formatM op v bo r) = bo ∧
      hdrRec (formatM op v bo r) = r ∧ (formatM op v bo r).extractLsb' 0 8 = 0 := by
  refine ⟨?_, ?_, ?_, ?_, ?_⟩
  case refine_3 => cases bo <;> simp [hdrBo, formatM, placeField, boBit]
  all_goals
    simp [hdrOp, hdrD, hdrRec, formatM, BitVec.extractLsb'_or, extract_placeField_same,
      extract_placeField_below, extract_placeField_above, regBits]

/-- The accessors on format E. -/
theorem fields_formatE (op : Opcode) :
    hdrOp (formatE op) = opcodeBits op ∧ (formatE op).extractLsb' 0 26 = 0 := by
  simp [hdrOp, formatE, extract_placeField_same, extract_placeField_above]

/-- The opcode numbers and the opcodes name each other (R93). -/
theorem opcodeOf?_opcodeBits (op : Opcode) : opcodeOf? (opcodeBits op) = some op := by
  cases op <;> rfl

theorem opcodeOf?_eq_some {b : BitVec 6} {op : Opcode} : opcodeOf? b = some op ↔ b = opcodeBits op := by
  constructor
  · revert op
    revert b
    decide
  · rintro rfl
    exact opcodeOf?_opcodeBits op

end Sys2Proof
end

