-- ==== Sys2Proof/Laws/PerInstr.lean ====
section
/-! SUPPORT. Statements made per command, one lemma per constructor: the packet a command is encoded in has the length
and the opcode of its row (30_encoding.md R93). -/

namespace Sys2Proof.Laws.PacketForm

/-- The packet of `i` is a header word with `i`'s opcode in bits 31:26 and as many argument words as R93 says. -/
def Statement (i : Instr) : Prop :=
  (encode i).length = packetLength i.opcode ∧ hdrOp ((encode i).headD 0) = opcodeBits i.opcode

theorem mirror (d : Reg) (imm : Word) : Statement (.mirror d imm) := ⟨rfl, (fields_formatI _ _).1⟩

theorem add (d : Reg) (a : Reg) (b : Reg) : Statement (.add d a b) := ⟨rfl, (fields_formatR _ _ _ _ _).1⟩

theorem xor (d : Reg) (a : Reg) (b : Reg) : Statement (.xor d a b) := ⟨rfl, (fields_formatR _ _ _ _ _).1⟩

theorem or (d : Reg) (a : Reg) (b : Reg) : Statement (.or d a b) := ⟨rfl, (fields_formatR _ _ _ _ _).1⟩

theorem and (d : Reg) (a : Reg) (b : Reg) : Statement (.and d a b) := ⟨rfl, (fields_formatR _ _ _ _ _).1⟩

theorem andn (d : Reg) (a : Reg) (b : Reg) : Statement (.andn d a b) := ⟨rfl, (fields_formatR _ _ _ _ _).1⟩

theorem shl (d : Reg) (a : Reg) (n : BitVec 5) : Statement (.shl d a n) := ⟨rfl, (fields_formatR _ _ _ _ _).1⟩

theorem shr (d : Reg) (a : Reg) (n : BitVec 5) : Statement (.shr d a n) := ⟨rfl, (fields_formatR _ _ _ _ _).1⟩

theorem rotl (d : Reg) (a : Reg) (n : BitVec 5) : Statement (.rotl d a n) := ⟨rfl, (fields_formatR _ _ _ _ _).1⟩

theorem load (v : Reg) (bo : ByteOrder) (addr : Word) : Statement (.load v bo addr) := ⟨rfl, (fields_formatM _ _ _ _).1⟩

theorem save (v : Reg) (bo : ByteOrder) (recSize : BitVec 12) (addr : Word) : Statement (.save v bo recSize addr) := ⟨rfl, (fields_formatM _ _ _ _).1⟩

theorem shaInit : Statement (.shaInit) := ⟨rfl, (fields_formatE _).1⟩

theorem shaBlock (addr : Word) : Statement (.shaBlock addr) := ⟨rfl, (fields_formatE _).1⟩

theorem shaSave (out : Word) : Statement (.shaSave out) := ⟨rfl, (fields_formatE _).1⟩

theorem shaTrunk (out : Word) (inp : Word) (count : Word) : Statement (.shaTrunk out inp count) := ⟨rfl, (fields_formatE _).1⟩

theorem rmdInit : Statement (.rmdInit) := ⟨rfl, (fields_formatE _).1⟩

theorem rmdBlock (addr : Word) : Statement (.rmdBlock addr) := ⟨rfl, (fields_formatE _).1⟩

theorem rmdSave (out : Word) : Statement (.rmdSave out) := ⟨rfl, (fields_formatE _).1⟩

theorem rmdTrunk (out : Word) (inp : Word) (count : Word) : Statement (.rmdTrunk out inp count) := ⟨rfl, (fields_formatE _).1⟩

end Sys2Proof.Laws.PacketForm
end

