-- ==== Sys2Proof/Laws/Port.lean ====
section
/-! SUPPORT. What each action of the host, and each move of a system, can do. -/

namespace Sys2Proof.Machine

/-- A host register write leaves the state, or appends a word to the command sequence of an engine that runs. -/
theorem portWriteReg_cases (s : State) (index : Nat) (w : Word) :
    portWriteReg s index w = s ∨
      index = 0 ∧ s.halted = false ∧ portWriteReg s index w = { s with cmds := s.cmds ++ [w] } := by
  cases index with
  | zero =>
    cases h : s.halted
    · exact .inr ⟨rfl, rfl, by simp [portWriteReg, h]⟩
    · exact .inl (by simp [portWriteReg, h])
  | succ n => exact .inl rfl

/-- A host memory write is a move exactly at an admitted byte, and writes that byte alone. -/
theorem portWriteMem_eq_some {s t : State} {a : Nat} {b : Byte} :
    portWriteMem s a b = some t ↔ s.admits a 1 = true ∧ t = s.putMem (s.mem.write a b) := by
  cases h : s.admits a 1 with
  | false => simp only [portWriteMem, h, Bool.false_eq_true, if_false, false_and, reduceCtorEq]
  | true => simp only [portWriteMem, h, if_true, true_and, Option.some.injEq, eq_comm]

/-- One byte is admitted when it lies below 2^32 and MEM_ADMIT holds of it. -/
theorem State.admits_one (s : State) (a : Nat) :
    s.admits a 1 = true ↔ a < 2 ^ 32 ∧ memAdmit s.inst.admitted a = true := by
  rw [State.admits_iff]
  refine ⟨fun h => ⟨by omega, h.2 a le_rfl (by omega)⟩, fun h => ⟨by omega, fun x h1 h2 => ?_⟩⟩
  rw [show x = a by omega]
  exact h.2

/-- Reset leaves the halted state (60_exceptions.md R306). -/
@[simp] theorem portReset_halted (s : State) : (portReset s).halted = false := by
  simp [portReset, State.afterReset, State.halted, faultFlag]

@[simp] theorem State.putMem_self (s : State) : s.putMem s.mem = s := rfl

/-- The invariant of a state over another memory: only the memory's own part of it changes. -/
theorem State.putMem_Inv {s : State} {m : Memory} (h : s.Inv = true) (hm : m.wf = true) : (s.putMem m).Inv = true := by
  simp only [State.Inv, Bool.and_eq_true] at h ⊢
  exact ⟨⟨h.1.1, hm⟩, h.2⟩

/-- A move of a system is an action on the instance it concerns, over the shared memory, and its commit. -/
theorem System.move_cases {y y' : System} {mv : Move} (h : y.move mv = some y') :
    ∃ s t, y.view mv.target = some s ∧ y' = y.commit mv.target t ∧
      (step s = .next t ∨ (∃ index w, t = portWriteReg s index w) ∨ (∃ a b, portWriteMem s a b = some t) ∨
        t = portReset s) := by
  cases mv with
  | engine k =>
    simp only [System.move, Option.bind_eq_some_iff, Option.map_eq_some_iff] at h
    obtain ⟨s, hs, t, ht, rfl⟩ := h
    refine ⟨s, t, hs, rfl, .inl ?_⟩
    cases hst : step s <;> simp_all [nextOf]
  | writeReg k index w =>
    simp only [System.move, Option.map_eq_some_iff] at h
    obtain ⟨s, hs, rfl⟩ := h
    exact ⟨s, _, hs, rfl, .inr (.inl ⟨index, w, rfl⟩)⟩
  | writeMem k a b =>
    simp only [System.move, Option.bind_eq_some_iff, Option.map_eq_some_iff] at h
    obtain ⟨s, hs, t, ht, rfl⟩ := h
    exact ⟨s, t, hs, rfl, .inr (.inr (.inl ⟨a, b, ht⟩))⟩
  | reset k =>
    simp only [System.move, Option.map_eq_some_iff] at h
    obtain ⟨s, hs, rfl⟩ := h
    exact ⟨s, _, hs, rfl, .inr (.inr (.inr rfl))⟩

/-- The view of an instance is one of the system's engines over the shared memory. -/
theorem System.view_eq_some {y : System} {k : Nat} {s : State} :
    y.view k = some s ↔ ∃ e, y.engines[k]? = some e ∧ s = e.putMem y.mem := by
  cases h : y.engines[k]? with
  | none => simp [System.view, h]
  | some e => simp [System.view, h, eq_comm]

end Sys2Proof.Machine
end

