-- ==== Sys2Proof/Laws/Step.lean ====
section
/-! SUPPORT. What the decoder and one step can do: the lemmas a proof about runs cites. -/

namespace Sys2Proof.Machine

/-- The command decoded from a packet of opcode `op` has that opcode. -/
theorem decodeFields_opcode {op : Opcode} {hdr : Word} {args : List Word} {i : Instr}
    (h : decodeFields op hdr args = .ok i) : i.opcode = op := by
  cases op <;> simp only [decodeFields, decodeTwoSource, decodeShift, decodeEngine] at h <;>
    repeat (first | (split at h) | (cases h <;> rfl))

/-- What it takes for the front of the command sequence to be a command: an assigned opcode, a whole packet, and fields
that pass; the words after the packet are the rest (30_encoding.md R98). -/
theorem decode_command {ws : List Word} {i : Instr} {rest : List Word} (h : decode ws = .command i rest) :
    ∃ hdr args, ws = hdr :: args ∧ opcodeOf? (hdrOp hdr) = some i.opcode ∧
      packetLength i.opcode ≤ ws.length ∧ decodeFields i.opcode hdr args = .ok i ∧
      rest = ws.drop (packetLength i.opcode) := by
  cases ws with
  | nil => simp [decode] at h
  | cons hdr args =>
    simp only [decode] at h
    split at h
    · cases h
    · rename_i op hop
      split at h
      · cases h
      · rename_i hlen
        split at h
        · rename_i j hj
          cases h
          have hop' := decodeFields_opcode hj
          refine ⟨hdr, args, rfl, hop' ▸ hop, by simp only [List.length_cons, hop']; omega, hop' ▸ hj, ?_⟩
          rw [hop']
          cases op <;> rfl
        · cases h

theorem packetLength_pos (op : Opcode) : 0 < packetLength op := by
  cases op <;> decide

/-- What one step that answers a next state does: the engine is not halted, and it is idle, or takes the fault of a
packet that does not decode, or executes the command it decodes. -/
theorem step_cases {s t : State} (h : step s = .next t) :
    s.halted = false ∧
      ((s.cmds = [] ∧ t = s) ∨ (∃ why, decode s.cmds = .rejected why ∧ t = s.takeFault (rejectCause why) 0) ∨
        ∃ i rest, decode s.cmds = .command i rest ∧ exec i s = .next t) := by
  cases hh : s.halted
  · refine ⟨rfl, ?_⟩
    simp only [step, fetch, hh] at h
    cases hd : decode s.cmds with
    | endOfSequence =>
      simp only [hd] at h
      refine .inl ⟨?_, by cases h; rfl⟩
      cases hc : s.cmds with
      | nil => rfl
      | cons w ws =>
        rw [hc] at hd
        simp only [decode] at hd
        split at hd
        · cases hd
        · split at hd
          · cases hd
          · split at hd <;> cases hd
    | command i rest =>
      simp only [hd] at h
      exact .inr (.inr ⟨i, rest, rfl, h⟩)
    | rejected why =>
      simp only [hd] at h
      exact .inr (.inl ⟨why, rfl, by cases h; rfl⟩)
  · simp [step, fetch, hh] at h

end Sys2Proof.Machine
end

