-- ==== Sys2Proof/Tests/Slice0.lean ====
section
/-! SUPPORT. Tests of the model against the spec's own vectors (95_test_vectors.md, T and P numbers), and for every
statement that has hypotheses a witness that meets them. -/

namespace Sys2Proof.Tests

open Sys2Proof.Machine

/-! ### Small states -/

/-- An instance as the vectors of 95_test_vectors.md have it: `MEM_ADMIT(a) = (a < 0x1000)`. -/
def vectorInstance (w : Width) : Instance := { width := w, admitted := [{ base := 0, size := 0x1000 }] }

/-- Its reset state over a memory. -/
def start (w : Width) (m : Memory) : State := State.afterReset (vectorInstance w) m

/-- `start` with `V[1]` and `V[2]` written, the same word in every lane. -/
def twoRegs (w : Width) (x y : Word) : State :=
  ((start w []).writeV 1 (lanes w.lanes fun _ => x)).writeV 2 (lanes w.lanes fun _ => y)

/-- `start` with the given words written to CMD. -/
def withCmds (w : Width) (ws : List Word) : State := portWriteCmd (start w []) ws

/-- `start` with both engines in the status `st`, holding their IV. -/
def engines (w : Width) (st : EngineStatus) (m : Memory) : State :=
  ((start w m).putSha (shaIvLanes w.lanes) st).putRmd (rmdIvLanes w.lanes) st

/-- The padded block of "abc" at address 0 (T20). -/
def abcMemory : Memory := [(0, 0x61), (1, 0x62), (2, 0x63), (3, 0x80), (63, 0x18)]

/-- The padded little-endian block of "0" at address 0 (T30). -/
def zeroMemory : Memory := [(0, 0x30), (1, 0x80), (56, 0x08)]

/-- The command answers a next state that passes the check. -/
def after (r : Result) (p : State → Bool) : Bool :=
  match r with
  | .next t => p t
  | .fault _ => false
  | .refused _ => false

/-- The command takes the fault `c` with that FAULT_ADDR, and leaves `pc`. -/
def faults (r : Result) (s : State) (c : Cause) (addr : Word) : Bool :=
  after r fun t => decide (t.status = statusWord c) && decide (t.faultAddr = addr) && decide (t.pc = s.pc) && t.halted

/-! ### WellFormed: an ill-formed term for each check -/

theorem test_wf_refuses_rotate_by_zero : (Instr.rotl 1 1 0).wf = false := by decide
theorem test_wf_refuses_record_of_three : (Instr.save 2 .be 3 0x100).wf = false := by decide
theorem test_wf_takes_boundary_operands :
    (Instr.rotl 1 1 1).wf = true ∧ (Instr.rotl 1 1 31).wf = true ∧ (Instr.shl 1 1 0).wf = true ∧
    (Instr.save 2 .be 4 0x100).wf = true ∧ (Instr.save 2 .be 4095 0).wf = true := by decide

/-! ### Decode: one word written out per constructor (T6), and words that do not decode (T7) -/

theorem test_decode_mirror : decode [0x04200000, 0xFFFFFFFF] = .command (.mirror 1 0xFFFFFFFF) [] := by decide
theorem test_decode_add : decode [0x08611000] = .command (.add 3 1 2) [] := by decide
theorem test_decode_xor : decode [0x0CE43000] = .command (.xor 7 4 6) [] := by decide
theorem test_decode_or : decode [0x10221800] = .command (.or 1 2 3) [] := by decide
theorem test_decode_and : decode [0x14221800] = .command (.and 1 2 3) [] := by decide
theorem test_decode_andn : decode [0x18C51800] = .command (.andn 6 5 3) [] := by decide
theorem test_decode_shl : decode [0x1C220100] = .command (.shl 1 2 4) [] := by decide
theorem test_decode_shr : decode [0x20A207C0] = .command (.shr 5 2 31) [] := by decide
theorem test_decode_rotl : decode [0x24830200] = .command (.rotl 4 3 8) [] := by decide
theorem test_decode_load_le : decode [0x28500000, 0x100] = .command (.load 2 .le 0x100) [] := by decide
theorem test_decode_load_be : decode [0x28400000, 0x100] = .command (.load 2 .be 0x100) [] := by decide
theorem test_decode_save_be : decode [0x2C402000, 0x200] = .command (.save 2 .be 32 0x200) [] := by decide
theorem test_decode_save_le : decode [0x2C501400, 0x214] = .command (.save 2 .le 20 0x214) [] := by decide
theorem test_decode_sha_init : decode [0x40000000] = .command .shaInit [] := by decide
theorem test_decode_sha_block : decode [0x44000000, 0x400] = .command (.shaBlock 0x400) [] := by decide
theorem test_decode_sha_save : decode [0x48000000, 0x180] = .command (.shaSave 0x180) [] := by decide
theorem test_decode_sha_trunk :
    decode [0x4C000000, 0x100, 0x400, 1] = .command (.shaTrunk 0x100 0x400 1) [] := by decide
theorem test_decode_rmd_init : decode [0x50000000] = .command .rmdInit [] := by decide
theorem test_decode_rmd_block : decode [0x54000000, 0] = .command (.rmdBlock 0) [] := by decide
theorem test_decode_rmd_save : decode [0x58000000, 0x120] = .command (.rmdSave 0x120) [] := by decide
theorem test_decode_rmd_trunk :
    decode [0x5C000000, 0x100, 0, 1] = .command (.rmdTrunk 0x100 0 1) [] := by decide

/-- T6: the encoder writes the spec's words. -/
theorem test_encode_boundary_registers :
    encode (.rotl 31 31 31) = [0x27FF07C0] ∧ encode (.add 31 31 31) = [0x0BFFF800] ∧
    encode (.save 31 .be 4095 0) = [0x2FEFFF00, 0] := by decide

/-- T7. -/
theorem test_decode_rejects :
    decode [0x00000000] = .rejected .reservedOpcode ∧ decode [0x30000000] = .rejected .reservedOpcode ∧
    decode [0xFFFFFFFF] = .rejected .reservedOpcode ∧ decode [0x08000040] = .rejected .reservedField ∧
    decode [0x08000001] = .rejected .reservedField ∧ decode [0x1C000840] = .rejected .reservedField ∧
    decode [0x24200000] = .rejected .rotateByZero ∧ decode [0x40000001] = .rejected .reservedField ∧
    decode [0x28000100, 0x100] = .rejected .reservedField ∧
    decode [0x2C000200, 0x100] = .rejected .recordTooSmall := by decide

/-- T49 to T51: a packet cut off, whatever its reserved bits. -/
theorem test_decode_truncated :
    decode [0x04200000] = .rejected .truncated ∧ decode [0x04200001] = .rejected .truncated ∧
    decode [0x4C000000, 0, 0] = .rejected .truncated := by decide

/-- The opcode table's own numbering: the first word is bits 31..0, the second bits 63..32. -/
theorem test_decode_table_word :
    decodeTableWord 64 0x0000010028500000 = some (.load 2 .le 0x100) ∧
    decodeTableWord 32 0x4C000000 = some (.shaTrunk 0 0 0) ∧ decodeTableWord 32 0x24000000 = none := by decide

/-- The word placed at reset is what the next step runs: `mirror v0, 0`. -/
theorem test_step_runs_fetch_word :
    after (step (State.reset.withFetchWord 32 0x04000000)) (fun t => t.written 0 && decide (t.pc = 2)) = true := by
  decide

/-! ### Primitives (T1, T2, T8) -/

theorem test_mirror : after (exec (.mirror 9 0xDEADBEEF) (start .w4 []))
    (fun t => decide (t.readV 9 = [0xDEADBEEF, 0xDEADBEEF, 0xDEADBEEF, 0xDEADBEEF]) && decide (t.pc = 2)) = true := by
  decide

theorem test_add_no_carry_between_lanes :
    after (exec (.add 3 1 2) (((start .w2 []).writeV 1 [0xFFFFFFFF, 0xFFFFFFFF]).writeV 2 [1, 2]))
      (fun t => decide (t.readV 3 = [0, 1])) = true := by decide

theorem test_add_wraps : after (exec (.add 2 1 2) (twoRegs .w1 0x80000000 0x80000000))
    (fun t => decide (t.readV 2 = [0])) = true := by decide

theorem test_xor : after (exec (.xor 3 1 2) (twoRegs .w1 0xFF00FF00 0x0FF00FF0))
    (fun t => decide (t.readV 3 = [0xF0F0F0F0])) = true := by decide

theorem test_or : after (exec (.or 3 1 2) (twoRegs .w1 0xFF00FF00 0x0FF00FF0))
    (fun t => decide (t.readV 3 = [0xFFF0FFF0])) = true := by decide

theorem test_and : after (exec (.and 3 1 2) (twoRegs .w1 0xFF00FF00 0x0FF00FF0))
    (fun t => decide (t.readV 3 = [0x0F000F00])) = true := by decide

theorem test_andn_complements_first : after (exec (.andn 3 1 2) (twoRegs .w1 0xF0F0F0F0 0xFFFF0000))
    (fun t => decide (t.readV 3 = [0x0F0F0000])) = true := by decide

theorem test_shl : after (exec (.shl 3 1 4) (twoRegs .w1 0x12345678 0))
    (fun t => decide (t.readV 3 = [0x23456780])) = true := by decide

theorem test_shl_zero : after (exec (.shl 3 1 0) (twoRegs .w1 0x80000001 0))
    (fun t => decide (t.readV 3 = [0x80000001])) = true := by decide

theorem test_shr_logical : after (exec (.shr 3 1 31) (twoRegs .w1 0x80000001 0))
    (fun t => decide (t.readV 3 = [1])) = true := by decide

theorem test_rotl : after (exec (.rotl 3 1 5) (twoRegs .w1 0x12345678 0))
    (fun t => decide (t.readV 3 = [0x468ACF02])) = true := by decide

theorem test_rotl_31 : after (exec (.rotl 1 1 31) (twoRegs .w1 0x80000001 0))
    (fun t => decide (t.readV 1 = [0xC0000000])) = true := by decide

/-! ### Transpose (T4, T5) -/

/-- The memory of T5: `61626380` at 0x100 and `80000000` at 0x140. -/
def transposeMemory : Memory := [(0x100, 0x61), (0x101, 0x62), (0x102, 0x63), (0x103, 0x80), (0x140, 0x80)]

theorem test_load_be_unaligned : after (exec (.load 0 .be 0x101) (start .w2 transposeMemory))
    (fun t => decide (t.readV 0 = [0x62638000, 0])) = true := by decide

theorem test_load_le : after (exec (.load 0 .le 0x100) (start .w2 transposeMemory))
    (fun t => decide (t.readV 0 = [0x80636261, 0x00000080])) = true := by decide

theorem test_save_be : after (exec (.save 2 .be 32 0x200) ((start .w2 []).writeV 2 [0x11223344, 0xAABBCCDD]))
    (fun t => decide (t.mem = [(0x200, 0x11), (0x201, 0x22), (0x202, 0x33), (0x203, 0x44),
      (0x220, 0xAA), (0x221, 0xBB), (0x222, 0xCC), (0x223, 0xDD)])) = true := by decide

theorem test_save_le : after (exec (.save 2 .le 20 0x214) ((start .w2 []).writeV 2 [0x11223344, 0xAABBCCDD]))
    (fun t => decide (t.mem.readBytes 0x228 4 = [0xDD, 0xCC, 0xBB, 0xAA])) = true := by decide

/-! ### The hash engines (T20, T30, P2, P3, 42_sha256.md R209 to R211, 43_ripemd160.md R260 to R262) -/

theorem test_sha_init : after (exec .shaInit (start .w4 []))
    (fun t => decide (t.hs.a = [0x6a09e667, 0x6a09e667, 0x6a09e667, 0x6a09e667]) && decide (t.sts = .active)) = true := by
  decide

theorem test_sha_block_abc : after (exec (.shaBlock 0) (engines .w1 .active abcMemory))
    (fun t => decide (t.hs.lane 0 = ⟨0xba7816bf, 0x8f01cfea, 0x414140de, 0x5dae2223,
      0xb00361a3, 0x96177a9c, 0xb410ff61, 0xf20015ad⟩)) = true := by decide +kernel

theorem test_sha_save_iv : after (exec (.shaSave 0x300) (engines .w1 .active []))
    (fun t => decide (t.mem.readBytes 0x31C 4 = [0x5b, 0xe0, 0xcd, 0x19]) && decide (t.sts = .final)) = true := by
  decide +kernel

/-- P2's lanes: "abc" in lane 0, the padded empty message in lane 1. -/
theorem test_sha_trunk_two_lanes :
    after (exec (.shaTrunk 0x100 0 1) (start .w2 (abcMemory.write 64 0x80)))
      (fun t => decide (t.mem.readBytes 0x100 4 = [0xba, 0x78, 0x16, 0xbf]) &&
        decide (t.mem.readBytes 0x120 4 = [0xe3, 0xb0, 0xc4, 0x42]) && decide (t.pc = 4)) = true := by decide +kernel

theorem test_rmd_init : after (exec .rmdInit (start .w2 []))
    (fun t => decide (t.hr.e = [0xC3D2E1F0, 0xC3D2E1F0]) && decide (t.str = .active)) = true := by decide

theorem test_rmd_block_zero : after (exec (.rmdBlock 0) (engines .w1 .active zeroMemory))
    (fun t => decide (t.hr.lane 0 = ⟨0x15d05eba, 0x4ca75d71, 0x3072e8f1, 0x85d473ba, 0xf6f6da5e⟩)) = true := by
  decide +kernel

theorem test_rmd_save_iv : after (exec (.rmdSave 0x300) (engines .w1 .final []))
    (fun t => decide (t.mem.readBytes 0x310 4 = [0xF0, 0xE1, 0xD2, 0xC3])) = true := by decide +kernel

/-- The source's scenario (T30, P3). -/
theorem test_rmd_trunk_source_example : after (exec (.rmdTrunk 0x100 0 1) (start .w1 zeroMemory))
    (fun t => decide (t.mem.readBytes 0x100 20 = [0xba, 0x5e, 0xd0, 0x15, 0x71, 0x5d, 0xa7, 0x4c, 0xf1, 0xe8,
      0x72, 0x30, 0xba, 0x73, 0xd4, 0x85, 0x5e, 0xda, 0xf6, 0xf6])) = true := by decide +kernel

/-- T25: `count = 0` writes the IV. -/
theorem test_sha_trunk_count_zero : after (exec (.shaTrunk 0 0xFFFFFFFF 0) (start .w1 []))
    (fun t => decide (t.mem.readBytes 0 4 = [0x6a, 0x09, 0xe6, 0x67])) = true := by decide +kernel

/-! ### Faults (T44, T52, T54 to T61) -/

theorem test_illegal_fault_registers : after (step (withCmds .w1 [0x24200000]))
    (fun t => decide (t.status = 0x03) && decide (t.faultCmd = 0x24200000) && decide (t.faultPc = 0) &&
      decide (t.faultAddr = 0)) = true := by decide

theorem test_truncated_status : after (step (withCmds .w1 [0x04200001])) (fun t => decide (t.status = 0x05)) = true := by
  decide

theorem test_unwritten_before_access : after (step (withCmds .w1 [0x2D202000, 0xFFFFFFF0]))
    (fun t => decide (t.status = 0x07) && decide (t.faultAddr = 0)) = true := by decide

theorem test_sequence_before_access : after (exec (.shaBlock 0xFFFFFFC0) (engines .w1 .final []))
    (fun t => decide (t.status = 0x09)) = true := by decide

theorem test_load_access : after (step (withCmds .w2 [0x28000000, 0xFC0]))
    (fun t => decide (t.status = 0x0B) && decide (t.faultAddr = 0xFC0)) = true := by decide

theorem test_trunk_reports_input_first : faults (exec (.shaTrunk 0x2000 0x1000 1) (start .w1 [])) (start .w1 [])
    .access 0x1000 = true := by decide

/-- T61: `64·W·count` is exact, without wrap. -/
theorem test_trunk_length_does_not_wrap : faults (exec (.shaTrunk 0 0 0x04000000) (start .w1 [])) (start .w1 [])
    .access 0 = true := by decide

/-- T65: a range past 2^32 is not admitted even when every address is. -/
theorem test_no_access_wraps : faults (exec (.load 0 .be 0xFFFFFFFE) State.reset) State.reset .access 0xFFFFFFFE = true := by
  decide

theorem test_halted_step : step ((start .w1 []).takeFault .illegal 0) = .fault .halted := rfl

theorem test_reset_leaves_halted : portReset ((start .w1 []).takeFault .illegal 0) = start .w1 [] := by decide

/-- CFG reads 0x2000 to 0x2004 (R38). -/
theorem test_cfg : portReadReg (start .w1 []) 2 = 0x2000 ∧ portReadReg (start .w16 []) 2 = 0x2004 := by decide

theorem test_illegal_width_refused : Width.ofNat? 3 = none ∧ Width.ofNat? 16 = some .w16 := by decide

/-- Writing what an unlisted address reads as removes the entry. -/
theorem test_memory_canonical : Memory.write [(5, 1)] 5 0 = [] ∧ Memory.write [(5, 1)] 3 2 = [(3, 2), (5, 1)] := by
  decide

/-- Two instances over one memory: instance 1 stores, instance 0 sees it. -/
theorem test_system_shares_memory :
    (({ engines := [start .w1 [], (withCmds .w1 [0x2C000400, 0x100]).writeV 0 [0x01020304]], mem := [] } : System).move
      (.engine 1)).map (fun y => (y.view 0).map fun s => s.mem.read 0x103) = some (some 4) := by decide

/-! ### Witnesses: states and operands that meet the hypotheses of each statement -/

theorem witness_DecodeInvertsEncode :
    (Instr.rotl 4 3 1).wf = true ∧ (Instr.rotl 4 3 31).wf = true ∧ (Instr.save 31 .le 4 0).wf = true := by decide

theorem witness_EncodeInvertsDecode : decode [0x08611000, 5] = .command (.add 3 1 2) [5] := by decide

/-- Both sides hold of a SAVE with the smallest record size; neither holds of record size 3, nor of a cut-off packet. -/
theorem witness_AcceptedPacketsMatchOpcodeTable :
    (∃ i rest, decode [0x2C000400, 0x100] = .command i rest ∧ i.opcode = .save) ∧
    (hdrRec 0x2C000400).toNat = 4 ∧ (0x2C000400 : Word) &&& tableMask .save = tableMatch .save ∧
    decode [0x2C000300, 0x100] = .rejected .recordTooSmall ∧ decode [0x2C000400] = .rejected .truncated :=
  ⟨⟨.save 0 .be 4 0x100, [], by decide, rfl⟩, by decide⟩

/-- The reserved opcodes at the ends of their ranges; a whole packet that misses its row; one that meets it. -/
theorem witness_ReservedEncodingsRaiseIllegal :
    (withCmds .w1 [0x30000000]).halted = false ∧ (withCmds .w1 [0x30000000]).cmds = [0x30000000] ∧
    (hdrOp 0x00000000).toNat = 0 ∧ (hdrOp 0x30000000).toNat = 0x0C ∧ (hdrOp 0x3C000000).toNat = 0x0F ∧
    (hdrOp 0x60000000).toNat = 0x18 ∧ (hdrOp 0xFC000000).toNat = 0x3F ∧
    hdrOp 0x24000000 = opcodeBits .rotl ∧ packetLength .rotl ≤ ([] : List Word).length + 1 ∧
    ¬MeetsRow .rotl 0x24000000 ∧ MeetsRow .rotl 0x24000040 := by
  unfold MeetsRow; decide

theorem witness_MissingArgumentWordsRaiseTruncated :
    (withCmds .w1 [0x4C000000, 1, 2]).halted = false ∧
    (withCmds .w1 [0x4C000000, 1, 2]).cmds = 0x4C000000 :: [1, 2] ∧ hdrOp 0x4C000000 = opcodeBits .shaTrunk ∧
    ([1, 2] : List Word).length + 1 < packetLength .shaTrunk := by decide

theorem witness_StepRunsDecodedCommand :
    (withCmds .w1 [0x04200000, 7, 0x40000000]).halted = false ∧
    decode (withCmds .w1 [0x04200000, 7, 0x40000000]).cmds = .command (.mirror 1 7) [0x40000000] := by decide

theorem witness_IdleEngineKeepsState : State.reset.halted = false ∧ State.reset.cmds = [] := by decide

/-- A halted engine, and a byte the host can write while it is halted: the last admitted one. -/
theorem witness_HaltedEngineOnlyLeavesByReset :
    ((start .w1 []).takeFault .access 0x1000).halted = true ∧
    (portWriteMem ((start .w1 []).takeFault .access 0x1000) 0xFFF 7).isSome = true := by decide

theorem witness_FaultEntryWritesOnlyFaultRegisters :
    (withCmds .w1 [0xFC000000, 3]).cmds = 0xFC000000 :: [3] := by decide

theorem witness_FaultsArePrecise :
    step (withCmds .w1 [0x00000000]) = .next ((withCmds .w1 [0x00000000]).takeFault .illegal 0) ∧
    ((withCmds .w1 [0x00000000]).takeFault .illegal 0).halted = true := ⟨rfl, by decide⟩

/-- A step that completes, and one that faults. -/
theorem witness_PcAdvancesByPacketLength :
    after (step (withCmds .w1 [0x04200000, 7])) (fun t => !t.halted && decide (t.pc = 2)) = true ∧
    after (step (withCmds .w1 [0x44000000, 7])) (fun t => t.halted && decide (t.pc = 0)) = true ∧
    decode (withCmds .w1 [0x04200000, 7]).cmds = .command (.mirror 1 7) [] ∧
    decode (withCmds .w1 [0x44000000, 7]).cmds = .command (.shaBlock 7) [] := by decide

/-- The registers at both ends of the range, on a running engine. -/
theorem witness_HostWritesOnlyCmd : (1 : Nat) ≠ 0 ∧ (6 : Nat) ≠ 0 ∧ (start .w1 []).halted = false := by decide

/-- The last admitted byte can be written, the next cannot. -/
theorem witness_HostMemoryAccess :
    (portWriteMem (start .w1 []) 0xFFF 7).isSome = true ∧ (portWriteMem (start .w1 []) 0x1000 7).isSome = false ∧
    (portWriteMem State.reset 0xFFFFFFFF 7).isSome = true ∧ (portWriteMem State.reset 0x100000000 7).isSome = false := by
  decide

theorem witness_CmdWritesAppend : (withCmds .w2 [0x40000000]).halted = false := by decide

theorem witness_AddSumsLanesModulo :
    (twoRegs .w16 1 2).written 1 = true ∧ (twoRegs .w16 1 2).written 2 = true := by decide

theorem witness_BitwiseCommandsActPerBit :
    (twoRegs .w2 1 2).written 1 = true ∧ (twoRegs .w2 1 2).written 2 = true := by decide

theorem witness_ShiftsScaleLanes : (twoRegs .w8 1 2).written 1 = true := by decide

theorem witness_RotateMovesEachBit :
    (twoRegs .w1 1 2).written 1 = true ∧ (1 : BitVec 5) ≠ 0 ∧ (31 : BitVec 5) ≠ 0 := by decide

/-- An unwritten first source, an unwritten second source, engines in UNINIT, and all sources written. -/
theorem witness_UnwrittenSourceRaisesUnwritten :
    (3 ∈ sourcesOf (.add 4 3 1) ∧ 3 ∈ sourcesOf (.save 3 .be 4 0) ∧ (Instr.save 3 .be 4 0).wf = true ∧
      (twoRegs .w1 1 2).written 3 = false) ∧
    (twoRegs .w1 1 2).sts = .uninit ∧ (twoRegs .w1 1 2).str = .uninit ∧
    familyOf (.rotl 3 1 31) = .primitive ∧ (Instr.rotl 3 1 31).wf = true ∧
    (∀ k ∈ sourcesOf (.rotl 3 1 31), (twoRegs .w1 1 2).written k = true) ∧
    (∀ i, i < (twoRegs .w1 1 2).lanesOf →
      (twoRegs .w1 1 2).admits ((0xFFC : Word).toNat + 64 * i) 4 = true) := by decide

theorem witness_IllFormedOperandsRaiseIllegal :
    (Instr.rotl 1 1 0).wf = false ∧ (Instr.save 1 .le 3 0).wf = false := by decide

/-- One lane against two: lane 0 is in range of both, and the registers agree in it. -/
theorem witness_LaneResultsIndependentOfWidth :
    familyOf (.add 3 1 2) = .primitive ∧ 0 < (twoRegs .w1 5 6).lanesOf ∧ 0 < (twoRegs .w2 5 6).lanesOf ∧
    (∀ r : Reg, (twoRegs .w2 5 6).written r = (twoRegs .w1 5 6).written r) ∧
    (∀ r : Reg, lane ((twoRegs .w2 5 6).readV r) 0 = lane ((twoRegs .w1 5 6).readV r) 0) := by decide

theorem witness_RotateAndShiftLaws : (1 ≤ 1 ∧ 1 ≤ 31) ∧ (1 ≤ 31 ∧ 31 ≤ 31) ∧ (0 < 32 ∧ 31 < 32) := by decide

/-- The last admitted base: lane 1's word ends at 0xFFF. -/
theorem witness_LoadGathersLanes : ∀ i, i < (start .w2 []).lanesOf →
    (start .w2 []).admits ((0xFBC : Word).toNat + 64 * i) 4 = true := by decide

/-- Record sizes at both ends of their range. -/
theorem witness_SaveScattersLanes :
    (twoRegs .w2 1 2).written 2 = true ∧ 4 ≤ (4 : BitVec 12).toNat ∧ 4 ≤ (4095 : BitVec 12).toNat ∧
    (∀ i, i < (twoRegs .w2 1 2).lanesOf →
      (twoRegs .w2 1 2).admits ((0xFF8 : Word).toNat + (4 : BitVec 12).toNat * i) 4 = true) ∧
    (∀ i, i < (State.reset.writeV 2 [9]).lanesOf →
      (State.reset.writeV 2 [9]).admits ((0 : Word).toNat + (4095 : BitVec 12).toNat * i) 4 = true) := by decide

/-- Record size 64 on two lanes, and record size 4 on one. -/
theorem witness_SaveThenLoadReturnsLanes :
    ((twoRegs .w2 1 2).written 2 = true ∧ (64 : BitVec 12).toNat = 64 ∧
      (∀ i, i < (twoRegs .w2 1 2).lanesOf →
        (twoRegs .w2 1 2).admits ((0x100 : Word).toNat + (64 : BitVec 12).toNat * i) 4 = true)) ∧
    ((twoRegs .w1 1 2).written 2 = true ∧ (twoRegs .w1 1 2).lanesOf = 1 ∧ 4 ≤ (4 : BitVec 12).toNat ∧
      (∀ i, i < (twoRegs .w1 1 2).lanesOf →
        (twoRegs .w1 1 2).admits ((0xFFC : Word).toNat + (4 : BitVec 12).toNat * i) 4 = true)) := by decide

/-- Two regions that meet at 8 admit a range across them; a byte between two that do not meet is not admitted, nor is a
range past 2^32. -/
theorem witness_AdmissionIsBytewise :
    (State.afterReset { width := .w1, admitted := [⟨8, 8⟩, ⟨0, 8⟩] } []).admits 0 16 = true ∧
    (State.afterReset { width := .w1, admitted := [⟨9, 8⟩, ⟨0, 8⟩] } []).admits 0 16 = false ∧
    memAdmit [⟨9, 8⟩, ⟨0, 8⟩] 8 = false ∧ memAdmit [⟨9, 8⟩, ⟨0, 8⟩] 16 = true ∧
    State.reset.admits 0xFFFFFFFC 4 = true ∧ State.reset.admits 0xFFFFFFFD 4 = false := by decide

/-- Each clause at its first address that is not admitted. -/
theorem witness_AccessFaultsReportBase :
    (1 < (start .w2 []).lanesOf ∧ (start .w2 []).admits ((0xFBD : Word).toNat + 64 * 1) 4 = false) ∧
    (4 ≤ (4 : BitVec 12).toNat ∧ (twoRegs .w2 1 2).written 2 = true ∧ 1 < (twoRegs .w2 1 2).lanesOf ∧
      (twoRegs .w2 1 2).admits ((0xFF9 : Word).toNat + (4 : BitVec 12).toNat * 1) 4 = false) ∧
    ((engines .w1 .active []).admits (0xFC1 : Word).toNat (64 * (engines .w1 .active []).lanesOf) = false ∧
      (engines .w1 .active []).sts = .active ∧ (engines .w1 .active []).str = .active) ∧
    ((engines .w1 .final []).sts ≠ .uninit ∧
      (engines .w1 .final []).admits (0xFE1 : Word).toNat (32 * (engines .w1 .final []).lanesOf) = false ∧
      (engines .w1 .final []).str ≠ .uninit ∧
      (engines .w1 .final []).admits (0xFED : Word).toNat (20 * (engines .w1 .final []).lanesOf) = false) ∧
    ((start .w1 []).admits (0 : Word).toNat (64 * (start .w1 []).lanesOf * (65 : Word).toNat) = false) ∧
    ((start .w1 []).admits (0 : Word).toNat (64 * (start .w1 []).lanesOf * (64 : Word).toNat) = true ∧
      (start .w1 []).admits (0xFE1 : Word).toNat (32 * (start .w1 []).lanesOf) = false ∧
      (start .w1 []).admits (0xFED : Word).toNat (20 * (start .w1 []).lanesOf) = false) := by decide

/-- Two orders of the same writes, at both ends of the address space. -/
theorem witness_CanonicalMemoryIsExtensional :
    ((Memory.write [] 0 1).write 0xFFFFFFFF 2).wf = true ∧ ((Memory.write [] 0xFFFFFFFF 2).write 0 1).wf = true ∧
    ∀ a, ((Memory.write [] 0 1).write 0xFFFFFFFF 2).read a = ((Memory.write [] 0xFFFFFFFF 2).write 0 1).read a := by
  refine ⟨by decide, by decide, fun a => ?_⟩
  rw [show (Memory.write [] 0 1).write 0xFFFFFFFF 2 = (Memory.write [] 0xFFFFFFFF 2).write 0 1 by decide]

/-- The last admitted round-group of two lanes. -/
theorem witness_ShaBlockCompressesLanes :
    (engines .w2 .active []).sts = .active ∧
    (engines .w2 .active []).admits (0xF80 : Word).toNat (64 * (engines .w2 .active []).lanesOf) = true := by decide

theorem witness_RmdBlockCompressesLanes :
    (engines .w2 .active []).str = .active ∧
    (engines .w2 .active []).admits (0xF80 : Word).toNat (64 * (engines .w2 .active []).lanesOf) = true := by decide

/-- ACTIVE and FINAL, the last admitted buffer. -/
theorem witness_ShaSaveWritesDigests :
    (engines .w2 .active []).sts ≠ .uninit ∧ (engines .w2 .final []).sts ≠ .uninit ∧
    (engines .w2 .final []).admits (0xFC0 : Word).toNat (32 * (engines .w2 .final []).lanesOf) = true := by decide

theorem witness_RmdSaveWritesDigests :
    (engines .w2 .active []).str ≠ .uninit ∧ (engines .w2 .final []).str ≠ .uninit ∧
    (engines .w2 .final []).admits (0xFD8 : Word).toNat (20 * (engines .w2 .final []).lanesOf) = true := by decide

/-- No round, and the most rounds that are admitted on two lanes. -/
theorem witness_ShaTrunkHashesTrunk :
    (start .w2 []).admits (0xFFFFFFFF : Word).toNat (64 * (start .w2 []).lanesOf * (0 : Word).toNat) = true ∧
    (start .w2 []).admits (0 : Word).toNat (64 * (start .w2 []).lanesOf * (32 : Word).toNat) = true ∧
    (start .w2 []).admits (0xFC0 : Word).toNat (32 * (start .w2 []).lanesOf) = true := by decide

theorem witness_RmdTrunkHashesTrunk :
    (start .w2 []).admits (0 : Word).toNat (64 * (start .w2 []).lanesOf * (32 : Word).toNat) = true ∧
    (start .w2 []).admits (0xFD8 : Word).toNat (20 * (start .w2 []).lanesOf) = true := by decide

/-- The output overlaps the trunk. -/
theorem witness_ShaTrunkEqualsSteps :
    (start .w2 []).admits (0 : Word).toNat (64 * (start .w2 []).lanesOf * (2 : Word).toNat) = true ∧
    (start .w2 []).admits (0x40 : Word).toNat (32 * (start .w2 []).lanesOf) = true := by decide

theorem witness_RmdTrunkEqualsSteps :
    (start .w2 []).admits (0 : Word).toNat (64 * (start .w2 []).lanesOf * (2 : Word).toNat) = true ∧
    (start .w2 []).admits (0x40 : Word).toNat (20 * (start .w2 []).lanesOf) = true := by decide

/-- Lane 1 of two holds "abc" at 64; the one-lane instance holds it at 0. -/
theorem witness_ShaDigestIndependentOfWidth :
    1 < (start .w2 [(64, 0x61), (127, 0x18)]).lanesOf ∧ (start .w1 [(0, 0x61), (63, 0x18)]).inst.width = .w1 ∧
    (start .w2 [(64, 0x61), (127, 0x18)]).admits (0 : Word).toNat
      (64 * (start .w2 [(64, 0x61), (127, 0x18)]).lanesOf * (1 : Word).toNat) = true ∧
    (start .w2 [(64, 0x61), (127, 0x18)]).admits (0x100 : Word).toNat
      (32 * (start .w2 [(64, 0x61), (127, 0x18)]).lanesOf) = true ∧
    (start .w1 [(0, 0x61), (63, 0x18)]).admits (0 : Word).toNat
      (64 * (start .w1 [(0, 0x61), (63, 0x18)]).lanesOf * (1 : Word).toNat) = true ∧
    (start .w1 [(0, 0x61), (63, 0x18)]).admits (0x200 : Word).toNat
      (32 * (start .w1 [(0, 0x61), (63, 0x18)]).lanesOf) = true ∧
    (∀ r, r < (1 : Word).toNat → ∀ k, k < 64 →
      (start .w2 [(64, 0x61), (127, 0x18)]).mem.read
        (trunkBlock (0 : Word).toNat (start .w2 [(64, 0x61), (127, 0x18)]).lanesOf r 1 + k) =
      (start .w1 [(0, 0x61), (63, 0x18)]).mem.read (trunkBlock (0 : Word).toNat 1 r 0 + k)) := by decide +kernel

theorem witness_RmdDigestIndependentOfWidth :
    1 < (start .w2 [(64, 0x61), (120, 0x18)]).lanesOf ∧ (start .w1 [(0, 0x61), (56, 0x18)]).inst.width = .w1 ∧
    (start .w2 [(64, 0x61), (120, 0x18)]).admits (0 : Word).toNat
      (64 * (start .w2 [(64, 0x61), (120, 0x18)]).lanesOf * (1 : Word).toNat) = true ∧
    (start .w2 [(64, 0x61), (120, 0x18)]).admits (0x100 : Word).toNat
      (20 * (start .w2 [(64, 0x61), (120, 0x18)]).lanesOf) = true ∧
    (start .w1 [(0, 0x61), (56, 0x18)]).admits (0 : Word).toNat
      (64 * (start .w1 [(0, 0x61), (56, 0x18)]).lanesOf * (1 : Word).toNat) = true ∧
    (start .w1 [(0, 0x61), (56, 0x18)]).admits (0x200 : Word).toNat
      (20 * (start .w1 [(0, 0x61), (56, 0x18)]).lanesOf) = true ∧
    (∀ r, r < (1 : Word).toNat → ∀ k, k < 64 →
      (start .w2 [(64, 0x61), (120, 0x18)]).mem.read
        (trunkBlock (0 : Word).toNat (start .w2 [(64, 0x61), (120, 0x18)]).lanesOf r 1 + k) =
      (start .w1 [(0, 0x61), (56, 0x18)]).mem.read (trunkBlock (0 : Word).toNat 1 r 0 + k)) := by decide +kernel

/-- The three statuses of both engines, and ranges that end at the last admitted byte. -/
theorem witness_EngineStatusTransitions :
    (engines .w1 .uninit []).sts = .uninit ∧ (engines .w1 .uninit []).str = .uninit ∧
    (engines .w1 .final []).sts = .final ∧ (engines .w1 .final []).str = .final ∧
    (engines .w1 .active []).sts = .active ∧ (engines .w1 .active []).str = .active ∧
    (engines .w1 .active []).admits (0xFC0 : Word).toNat (64 * (engines .w1 .active []).lanesOf) = true ∧
    (engines .w1 .active []).admits (0xFE0 : Word).toNat (32 * (engines .w1 .active []).lanesOf) = true ∧
    (engines .w1 .active []).admits (0xFEC : Word).toNat (20 * (engines .w1 .active []).lanesOf) = true ∧
    (engines .w1 .active []).admits (0 : Word).toNat
      (64 * (engines .w1 .active []).lanesOf * (64 : Word).toNat) = true := by decide

theorem witness_ShaCompressFollowsRounds : (Memory.readBytes abcMemory 0 64).length = 64 := by decide

theorem witness_RmdCompressFollowsRounds : (Memory.readBytes zeroMemory 0 64).length = 64 := by decide

/-- The invariant holds before a step that completes, before one that faults, and of a halted engine. -/
theorem witness_StepKeepsInvariant :
    (withCmds .w2 [0x04200000, 7]).Inv = true ∧ after (step (withCmds .w2 [0x04200000, 7])) State.Inv = true ∧
    (withCmds .w2 [0xFC000000]).Inv = true ∧ after (step (withCmds .w2 [0xFC000000])) State.Inv = true := by decide

/-- The invariant holds of a running and of a halted engine, and each can have a byte written. -/
theorem witness_HostMovesKeepInvariant :
    (withCmds .w2 [0x40000000]).Inv = true ∧ ((withCmds .w2 [0x40000000]).takeFault .illegal 0).Inv = true ∧
    (portWriteMem (withCmds .w2 [0x40000000]) 0xFFF 7).isSome = true := by decide

/-- A system with the invariant that an engine and the host can move. -/
theorem witness_SystemMovesKeepInvariant :
    Memory.wf zeroMemory = true ∧
    ({ engines := [start .w1 [], withCmds .w2 [0x40000000]], mem := zeroMemory } : System).Inv = true ∧
    (({ engines := [start .w1 [], withCmds .w2 [0x40000000]], mem := zeroMemory } : System).move
      (.engine 1)).isSome = true ∧
    (({ engines := [start .w1 [], withCmds .w2 [0x40000000]], mem := zeroMemory } : System).move
      (.writeMem 0 0xFFF 7)).isSome = true := by decide

theorem witness_ResetHasInvariant : Memory.wf zeroMemory = true := by decide

theorem witness_StepsNeverClearWrittenFlags :
    (portWriteCmd (twoRegs .w1 1 2) [0x04200000, 7]).written 2 = true ∧
    after (step (portWriteCmd (twoRegs .w1 1 2) [0x04200000, 7])) (fun t => t.written 2 && t.written 1) = true := by
  decide

theorem witness_StepsKeepInstance :
    after (step (withCmds .w4 [0x40000000])) (fun t => decide (t.inst = vectorInstance .w4)) = true := by decide

/-- A command of each family answers a next state, one that stores and one that does not. -/
theorem witness_CommandsTouchOnlyTheirState :
    after (exec (.mirror 1 2) (start .w1 [])) (fun _ => true) = true ∧ familyOf (.mirror 1 2) = .primitive ∧
    after (exec (.load 1 .be 0) (start .w1 [])) (fun _ => true) = true ∧ familyOf (.load 1 .be 0) = .transpose ∧
    after (exec (.shaTrunk 0 0 0) (start .w1 [])) (fun _ => true) = true ∧ familyOf (.shaTrunk 0 0 0) = .sha ∧
    after (exec (.rmdTrunk 0 0 0) (start .w1 [])) (fun _ => true) = true ∧ familyOf (.rmdTrunk 0 0 0) = .rmd ∧
    storesMemory (.mirror 1 2) = false ∧ storesMemory (.shaTrunk 0 0 0) = true := by decide

/-- Two states that differ in an unwritten register and in a HashState in UNINIT; they step to a next state, and once
halted to a fault. -/
theorem witness_UnreadableContentsDoNotMatter :
    SameReadable (withCmds .w1 [0x40000000])
      { withCmds .w1 [0x40000000] with v := Vector.replicate 32 [5], hr := iv160.map fun x => [x] } ∧
    after (step (withCmds .w1 [0x40000000])) (fun _ => true) = true ∧
    step ((withCmds .w1 []).takeFault .illegal 0) = .fault .halted :=
  ⟨by unfold SameReadable; decide, by decide, rfl⟩

/-- Two states that differ in memory and in a register's contents. -/
theorem witness_ControlIndependentOfData :
    SameControl (portWriteCmd (twoRegs .w1 1 2) [0x08611000])
      ((portWriteCmd (twoRegs .w1 3 4) [0x08611000]).putMem [(7, 8)]) ∧
    after (step (portWriteCmd (twoRegs .w1 1 2) [0x08611000])) (fun _ => true) = true :=
  ⟨by unfold SameControl; decide, by decide⟩

/-- A move of instance 1 of two, seen from instance 0. -/
theorem witness_InstancesShareOnlyMemory :
    (({ engines := [start .w1 [], withCmds .w2 [0x40000000]], mem := [] } : System).move (.engine 1)).isSome = true ∧
    0 ≠ (Move.engine 1).target := by decide

end Sys2Proof.Tests
end

section
/-! SUPPORT. What one step can do, read off `Completes`; from it, that faults are precise (60_exceptions.md R305) and that
W and MEM_ADMIT are fixed (10_state.md R45). -/

namespace Sys2Proof.Machine

theorem Effect.inst_eq {s u : State} (h : Effect s u) : u.inst = s.inst := by
  cases h <;> rfl

theorem Effect.halted_eq {s u : State} (h : Effect s u) : u.halted = s.halted := by
  cases h <;> rfl

theorem Completes.inst_eq {len : Nat} {s t : State} (h : Completes len s t) : t.inst = s.inst := by
  rcases h with ⟨c, addr, -, rfl⟩ | ⟨u, hu, rfl⟩
  · exact State.takeFault_inst s c addr
  · exact hu.inst_eq

/-- Of a command's two ends, only the fault entry halts a running engine. -/
theorem Completes.takeFault_of_halted {len : Nat} {s t : State} (h : Completes len s t) (hrun : s.halted = false)
    (hhalt : t.halted = true) : ∃ c addr, t = s.takeFault c addr := by
  rcases h with ⟨c, addr, -, ht⟩ | ⟨u, hu, rfl⟩
  · exact ⟨c, addr, ht⟩
  · simp [hu.halted_eq, hrun] at hhalt

/-- A step with a next state is one of an engine that runs; it keeps an idle engine as it was, and otherwise ends as a
command does, the fault of a packet that does not decode included (30_encoding.md R98). -/
theorem step_completes {s t : State} (h : step s = .next t) :
    s.halted = false ∧ (t = s ∨ ∃ len, Completes len s t) := by
  obtain ⟨hrun, ⟨-, hidle⟩ | ⟨why, -, rfl⟩ | ⟨i, rest, -, hexec⟩⟩ := step_cases h
  · exact ⟨hrun, .inl hidle⟩
  · exact ⟨hrun, .inr ⟨0, completes_fault _⟩⟩
  · obtain ⟨t', ht', hc⟩ := exec_cases i s
    cases hexec.symm.trans ht'
    exact ⟨hrun, .inr ⟨_, hc⟩⟩

/-- Settles O11: a step that is not idle ends as a command does, and of a command's two ends only the fault entry leaves
the engine halted. -/
theorem faultsArePrecise : Obligations.FaultsArePrecise := by
  intro s t hstep hhalt
  obtain ⟨hrun, rfl | ⟨len, hc⟩⟩ := step_completes hstep
  · simp [hrun] at hhalt
  · exact hc.takeFault_of_halted hrun hhalt

/-- Settles O50: an idle step and both ends of a command keep W and MEM_ADMIT. -/
theorem stepsKeepInstance : Obligations.StepsKeepInstance := by
  intro s t hstep
  obtain ⟨-, rfl | ⟨len, hc⟩⟩ := step_completes hstep
  · rfl
  · exact hc.inst_eq

end Sys2Proof.Machine
end

section
/-! SUPPORT. What admission means (00_scope.md R16, 20_memory.md R61). -/

namespace Sys2Proof.Machine

theorem memAdmit_iff (regions : List Region) (x : Nat) :
    memAdmit regions x = true ↔ ∃ r ∈ regions, r.base ≤ x ∧ x < r.base + r.size := by
  simp [memAdmit]

/-- Settles O57, by `State.admits_iff`, whose core is `covered_iff`: the check that cuts a range at each region's ends
says what the bytewise one does. -/
theorem admissionIsBytewise : Obligations.AdmissionIsBytewise :=
  ⟨State.admits_iff, memAdmit_iff⟩

end Sys2Proof.Machine
end

section
/-! SUPPORT. Commands that write one vector register lane by lane, and the shifts (40_backend_alu.md R131, R139, R140). -/

namespace Sys2Proof.Machine

/-- A write of `V[d]` and the retirement of the packet leave everything outside the register frame. -/
theorem registerFrame_writeV_retire (s : State) (d : Reg) (x : VectorWord) (len : Nat) :
    RegisterFrame d s ((s.writeV d x).retire len) := by
  refine ⟨⟨rfl, rfl, rfl, rfl, rfl⟩, ⟨rfl, rfl⟩, ⟨rfl, rfl⟩, fun _ => rfl, fun k hk => ?_⟩
  simp [State.writeV_readV, State.writeV_written, hk]

/-- All that a command which computes `V[d]` lane by lane does. -/
theorem writeV_lanes_retire {s t : State} {d : Reg} {f : Nat → Word} {len : Nat}
    (ht : t = (s.writeV d (lanes s.lanesOf f)).retire len) :
    (t.readV d).length = s.lanesOf ∧ (∀ i, i < s.lanesOf → lane (t.readV d) i = f i) ∧
      t.written d = true ∧ Retired len s t ∧ RegisterFrame d s t := by
  subst ht
  refine ⟨?_, fun i hi => ?_, ?_, ⟨rfl, rfl⟩, registerFrame_writeV_retire s d _ len⟩
  · simp
  · simp [lane_lanes _ _ _ hi]
  · simp

/-- A one-source command whose source is written completes, with `f` of the source in each lane of `V[d]` (R131). -/
theorem aluOne_completes {d a : Reg} (f : Word → Word) {s : State} (ha : s.written a = true) :
    ∃ t, aluOne d a f s = .next t ∧ (t.readV d).length = s.lanesOf ∧
      (∀ i, i < s.lanesOf → lane (t.readV d) i = f (lane (s.readV a) i)) ∧
      t.written d = true ∧ Retired 1 s t ∧ RegisterFrame d s t :=
  ⟨_, aluOne_written ha, writeV_lanes_retire rfl⟩

theorem toNat_shl32 (x : Word) (n : Nat) : (shl32 x n).toNat = (x.toNat * 2 ^ n) % 2 ^ 32 := by
  rw [shl32, BitVec.toNat_shiftLeft, Nat.shiftLeft_eq]

theorem toNat_shr32 (x : Word) (n : Nat) : (shr32 x n).toNat = x.toNat / 2 ^ n := by
  rw [shr32, BitVec.toNat_ushiftRight, Nat.shiftRight_eq_div_pow]

/-- Settles O20: both shifts are one-source commands, whose function scales the value of a lane. -/
theorem shiftsScaleLanes : Obligations.ShiftsScaleLanes := by
  intro s d a n ha
  constructor
  · obtain ⟨t, hexec, hlen, hlane, hrest⟩ := aluOne_completes (d := d) (shl32 · n.toNat) ha
    exact ⟨t, hexec, hlen, fun i hi => by rw [hlane i hi, toNat_shl32], hrest⟩
  · obtain ⟨t, hexec, hlen, hlane, hrest⟩ := aluOne_completes (d := d) (shr32 · n.toNat) ha
    exact ⟨t, hexec, hlen, fun i hi => by rw [hlane i hi, toNat_shr32], hrest⟩

end Sys2Proof.Machine
end

section
/-! SUPPORT. The two byte orders (00_scope.md R15). A big-endian word's value determines its bytes and is determined by
them, which gives both round trips; little-endian is the same of the bytes reversed. -/

namespace Sys2Proof.Machine

/-- A byte placed above the bits a word uses adds to the word's value. -/
theorem toNat_setWidth_shiftLeft_or (b : Byte) {x : Word} {k v : Nat} (hx : x.toNat = v) (hv : v < 2 ^ k)
    (hk : k ≤ 24) : (b.setWidth 32 <<< k ||| x).toNat = b.toNat * 2 ^ k + v := by
  have hb : b.toNat * 2 ^ k < 2 ^ 32 :=
    calc b.toNat * 2 ^ k ≤ b.toNat * 2 ^ 24 := Nat.mul_le_mul_left _ (Nat.pow_le_pow_right (by omega) hk)
      _ < 2 ^ 32 := by omega
  rw [BitVec.toNat_or, BitVec.toNat_shiftLeft, BitVec.toNat_setWidth_of_le (by omega), Nat.shiftLeft_eq,
    Nat.mod_eq_of_lt hb, hx, Nat.mul_comm, Nat.two_pow_add_eq_or_of_lt hv]

/-- The first byte of a big-endian word is the most significant. -/
theorem toNat_be32 (b0 b1 b2 b3 : Byte) : (be32 b0 b1 b2 b3).toNat =
    b0.toNat * 2 ^ 24 + b1.toNat * 2 ^ 16 + b2.toNat * 2 ^ 8 + b3.toNat := by
  have h3 : (b3.setWidth 32).toNat = b3.toNat := BitVec.toNat_setWidth_of_le (by omega)
  have h2 := toNat_setWidth_shiftLeft_or b2 (k := 8) h3 (by omega) (by omega)
  have h1 := toNat_setWidth_shiftLeft_or b1 (k := 16) h2 (by omega) (by omega)
  have h0 := toNat_setWidth_shiftLeft_or b0 (k := 24) h1 (by omega) (by omega)
  rw [be32, BitVec.or_assoc, BitVec.or_assoc, h0]
  omega

theorem le32_eq_be32 (b0 b1 b2 b3 : Byte) : le32 b0 b1 b2 b3 = be32 b3 b2 b1 b0 := rfl

theorem encLe32_eq_reverse (x : Word) : encLe32 x = (encBe32 x).reverse := rfl

/-- The big-endian word of a word's own four bytes is that word. -/
theorem be32_extractLsb' (x : Word) :
    be32 (x.extractLsb' 24 8) (x.extractLsb' 16 8) (x.extractLsb' 8 8) (x.extractLsb' 0 8) = x := by
  apply BitVec.eq_of_toNat_eq
  simp only [toNat_be32, BitVec.extractLsb'_toNat, Nat.shiftRight_eq_div_pow]
  omega

theorem encBe32_be32 (b0 b1 b2 b3 : Byte) : encBe32 (be32 b0 b1 b2 b3) = [b0, b1, b2, b3] := by
  have byteAt (k : Nat) (b : Byte) (h : (be32 b0 b1 b2 b3).toNat / 2 ^ k % 2 ^ 8 = b.toNat) :
      (be32 b0 b1 b2 b3).extractLsb' k 8 = b := by
    apply BitVec.eq_of_toNat_eq
    rw [BitVec.extractLsb'_toNat, Nat.shiftRight_eq_div_pow, h]
  have hvalue := toNat_be32 b0 b1 b2 b3
  rw [encBe32, byteAt 24 b0 (by omega), byteAt 16 b1 (by omega), byteAt 8 b2 (by omega), byteAt 0 b3 (by omega)]

/-- `dec(bo, enc(bo, x)) = x`. -/
theorem decWord_encWord (bo : ByteOrder) (x : Word) :
    ∃ b0 b1 b2 b3, encWord bo x = [b0, b1, b2, b3] ∧ decWord bo b0 b1 b2 b3 = x := by
  cases bo with
  | be => exact ⟨_, _, _, _, rfl, be32_extractLsb' x⟩
  | le => exact ⟨_, _, _, _, rfl, be32_extractLsb' x⟩

/-- `enc(bo, dec(bo, bytes)) = bytes`, of four bytes. -/
theorem encWord_decWord (bo : ByteOrder) (b0 b1 b2 b3 : Byte) :
    encWord bo (decWord bo b0 b1 b2 b3) = [b0, b1, b2, b3] := by
  cases bo with
  | be => exact encBe32_be32 b0 b1 b2 b3
  | le => exact congrArg List.reverse (encBe32_be32 b3 b2 b1 b0)

/-- Settles O29: the two round trips, the reversal, and the value of a big-endian word. -/
theorem byteOrdersRoundTrip : Obligations.ByteOrdersRoundTrip :=
  ⟨decWord_encWord, encWord_decWord, le32_eq_be32, encLe32_eq_reverse, toNat_be32⟩

end Sys2Proof.Machine
end

section
/-! SUPPORT. The invariant of the machine in named parts, that every step keeps it (10_state.md R30, R37, R39 to R41;
20_memory.md R60; 60_exceptions.md R304), and that reset has it (70_reset_and_hazards.md R350). -/

namespace Sys2Proof.Machine

/-- The invariant but for the fault registers: every VectorWord has W lanes, and the memory is canonical. -/
structure State.DataOk (s : State) : Prop where
  v : ∀ k : Reg, (s.readV k).length = s.lanesOf
  hs : ∀ x ∈ s.hs.toList, x.length = s.lanesOf
  hr : ∀ x ∈ s.hr.toList, x.length = s.lanesOf
  mem : s.mem.wf = true

theorem State.all_v_hasLanes_iff (s : State) :
    s.v.toList.all s.hasLanes = true ↔ ∀ k : Reg, (s.readV k).length = s.lanesOf := by
  simp only [List.all_eq_true, Vector.mem_toList_iff, Vector.mem_iff_getElem, State.hasLanes, decide_eq_true_eq]
  constructor
  · exact fun h k => h _ ⟨k, k.isLt, rfl⟩
  · rintro h _ ⟨i, hi, rfl⟩
    exact h ⟨i, hi⟩

theorem State.inv_iff (s : State) : s.Inv = true ↔ s.DataOk ∧ s.faultRegsOk = true := by
  simp only [State.Inv, State.memOk, Bool.and_eq_true, State.all_v_hasLanes_iff]
  simp only [State.hasLanes, List.all_eq_true, decide_eq_true_eq]
  constructor
  · rintro ⟨⟨⟨⟨hv, hhs⟩, hhr⟩, hmem⟩, hfault⟩
    exact ⟨⟨hv, hhs, hhr, hmem⟩, hfault⟩
  · rintro ⟨⟨hv, hhs, hhr, hmem⟩, hfault⟩
    exact ⟨⟨⟨⟨hv, hhs⟩, hhr⟩, hmem⟩, hfault⟩

/-! ### The fault registers -/

/-- Of an engine that runs, the fault registers are right exactly when all four are 0. -/
theorem State.faultRegsOk_of_running {s : State} (hrun : s.halted = false) :
    s.faultRegsOk = true ↔ s.status = 0 ∧ s.faultCmd = 0 ∧ s.faultPc = 0 ∧ s.faultAddr = 0 := by
  have hcause (c : Cause) : s.status ≠ statusWord c := by
    intro hc
    simp [State.halted, hc] at hrun
  simp [State.faultRegsOk, hcause, and_assoc]

theorem State.takeFault_faultRegsOk (s : State) {c : Cause} {addr : Word} (h : addr = 0 ∨ c = .access) :
    (s.takeFault c addr).faultRegsOk = true := by
  have hne := statusWord_ne_zero c
  rcases h with rfl | rfl
  · cases c <;> simp [State.faultRegsOk, hne]
  · simp [State.faultRegsOk, hne]

/-! ### Every step keeps the invariant -/

theorem Effect.sameHostSide {s u : State} (h : Effect s u) : SameHostSide s u := by
  cases h <;> exact ⟨rfl, rfl, rfl, rfl, rfl⟩

theorem Effect.dataOk {s u : State} (h : Effect s u) (hs : s.DataOk) : u.DataOk := by
  cases h with
  | vector d x hx =>
    refine ⟨fun k => ?_, hs.hs, hs.hr, hs.mem⟩
    rw [State.writeV_readV]
    split
    · exact hx
    · exact hs.v k
  | store cs hc => exact ⟨hs.v, hs.hs, hs.hr, Memory.wf_writeChunks hc hs.mem⟩
  | sha cs h st hc hst hh =>
    refine ⟨hs.v, ?_, hs.hr, Memory.wf_writeChunks hc hs.mem⟩
    rcases hh with ⟨rfl, -⟩ | hlen
    · exact hs.hs
    · exact hlen
  | rmd cs h st hc hst hh =>
    refine ⟨hs.v, hs.hs, ?_, Memory.wf_writeChunks hc hs.mem⟩
    rcases hh with ⟨rfl, -⟩ | hlen
    · exact hs.hr
    · exact hlen

theorem Completes.inv {len : Nat} {s t : State} (h : Completes len s t) (hrun : s.halted = false)
    (hs : s.Inv = true) : t.Inv = true := by
  rw [State.inv_iff] at hs ⊢
  obtain ⟨hdata, hfault⟩ := hs
  rcases h with ⟨c, addr, hc, rfl⟩ | ⟨u, hu, rfl⟩
  · exact ⟨⟨hdata.v, hdata.hs, hdata.hr, hdata.mem⟩, s.takeFault_faultRegsOk hc⟩
  · have hu' := hu.dataOk hdata
    have hurun : (u.retire len).halted = false := hu.halted_eq.trans hrun
    obtain ⟨-, hstatus, hcmd, hpc, haddr⟩ := hu.sameHostSide
    refine ⟨⟨hu'.v, hu'.hs, hu'.hr, hu'.mem⟩, ?_⟩
    rw [State.faultRegsOk_of_running hrun] at hfault
    rw [State.faultRegsOk_of_running hurun]
    simpa [hstatus, hcmd, hpc, haddr] using hfault

/-- Settles O47: an idle step keeps the state, and both ends of a command keep the invariant; that the engine runs is why
the fault registers are 0 until the fault. -/
theorem stepKeepsInvariant : Obligations.StepKeepsInvariant := by
  intro s t hinv hstep
  obtain ⟨hrun, rfl | ⟨len, hc⟩⟩ := step_completes hstep
  · exact hinv
  · exact hc.inv hrun hinv

/-! ### Reset has it -/

theorem State.afterReset_dataOk (inst : Instance) {m : Memory} (hm : m.wf = true) :
    (State.afterReset inst m).DataOk where
  v k := by simp [State.readV, State.afterReset, State.lanesOf]
  hs := by simp [State.afterReset, State.lanesOf, Hash8.toList]
  hr := by simp [State.afterReset, State.lanesOf, Hash5.toList]
  mem := hm

theorem State.afterReset_inv (inst : Instance) {m : Memory} (hm : m.wf = true) :
    (State.afterReset inst m).Inv = true :=
  (State.inv_iff _).2 ⟨State.afterReset_dataOk inst hm, rfl⟩

/-- Settles O48: the VectorWords of reset have W lanes and its fault registers are 0; `State.reset` is one such state,
over the empty memory. -/
theorem resetHasInvariant : Obligations.ResetHasInvariant :=
  ⟨fun inst _ hm => State.afterReset_inv inst hm, State.afterReset_inv Instance.reference rfl⟩

end Sys2Proof.Machine
end

section
/-! SUPPORT. States that agree on what is readable (10_state.md R46): every update of State keeps the agreement, and so
every shared operation of the meanings does, since it checks the written flags (60_exceptions.md R302) or the status
(10_state.md R33) before it reads. -/

namespace Sys2Proof.Machine

section
variable {s u : State} (h : SameReadable s u)
include h

/-! ### What agreeing states answer alike -/

theorem SameReadable.inst_eq : u.inst = s.inst := by
  obtain ⟨hinst, -⟩ := h
  exact hinst

theorem SameReadable.lanesOf_eq : u.lanesOf = s.lanesOf := by
  rw [State.lanesOf, h.inst_eq, State.lanesOf]

theorem SameReadable.admits_eq (addr n : Nat) : u.admits addr n = s.admits addr n := by
  rw [State.admits, h.inst_eq, State.admits]

theorem SameReadable.admitLanes_eq (base stride : Nat) : u.admitLanes base stride = s.admitLanes base stride := by
  simp only [State.admitLanes, h.lanesOf_eq, h.admits_eq]

theorem SameReadable.sts_eq : u.sts = s.sts := by
  obtain ⟨-, -, -, hsts, -⟩ := h
  exact hsts

theorem SameReadable.str_eq : u.str = s.str := by
  obtain ⟨-, -, -, -, hstr, -⟩ := h
  exact hstr

theorem SameReadable.mem_eq : u.mem = s.mem := by
  obtain ⟨-, -, -, -, -, -, -, -, -, hmem, -⟩ := h
  exact hmem

theorem SameReadable.written_eq (k : Reg) : u.written k = s.written k := by
  obtain ⟨-, -, -, -, -, -, -, -, -, -, hwritten, -⟩ := h
  exact hwritten k

theorem SameReadable.readV_eq {k : Reg} (hk : s.written k = true) : u.readV k = s.readV k := by
  obtain ⟨-, -, -, -, -, -, -, -, -, -, -, hread, -⟩ := h
  exact hread k hk

theorem SameReadable.hs_eq (hst : s.sts ≠ .uninit) : u.hs = s.hs := by
  obtain ⟨-, -, -, -, -, -, -, -, -, -, -, -, hhs, -⟩ := h
  exact hhs hst

theorem SameReadable.hr_eq (hst : s.str ≠ .uninit) : u.hr = s.hr := by
  obtain ⟨-, -, -, -, -, -, -, -, -, -, -, -, -, hhr⟩ := h
  exact hhr hst

theorem SameReadable.fetch_eq : fetch u = fetch s := by
  obtain ⟨-, -, hcmds, -, -, hstatus, -⟩ := h
  rw [fetch, State.halted, hcmds, hstatus]
  rfl

/-! ### Updates keep the agreement -/

theorem SameReadable.writeV (d : Reg) (x : VectorWord) : SameReadable (s.writeV d x) (u.writeV d x) := by
  obtain ⟨hinst, hpc, hcmds, hsts, hstr, hstatus, hcmd, hfpc, haddr, hmem, hwritten, hread, hhs, hhr⟩ := h
  refine ⟨hinst, hpc, hcmds, hsts, hstr, hstatus, hcmd, hfpc, haddr, hmem, fun k => ?_, fun k hk => ?_, hhs, hhr⟩
  · rw [State.writeV_written, State.writeV_written, hwritten]
  · rw [State.writeV_readV, State.writeV_readV]
    split
    · rfl
    · simp_all [State.writeV_written]

theorem SameReadable.putSha (x : Hash8 VectorWord) (st : EngineStatus) :
    SameReadable (s.putSha x st) (u.putSha x st) := by
  simp_all [SameReadable]

theorem SameReadable.putRmd (x : Hash5 VectorWord) (st : EngineStatus) :
    SameReadable (s.putRmd x st) (u.putRmd x st) := by
  simp_all [SameReadable]

theorem SameReadable.putMem (m : Memory) : SameReadable (s.putMem m) (u.putMem m) := by
  simp_all [SameReadable]

theorem SameReadable.retire (len : Nat) : SameReadable (s.retire len) (u.retire len) := by
  simp_all [SameReadable]

theorem SameReadable.takeFault (c : Cause) (addr : Word) : SameReadable (s.takeFault c addr) (u.takeFault c addr) := by
  simp_all [SameReadable, State.header]

/-! ### The engines' effects keep the agreement -/

theorem SameReadable.shaFinish (out : Nat) (x : Hash8 VectorWord) :
    SameReadable (shaFinish out x s) (shaFinish out x u) := by
  rw [Machine.shaFinish, Machine.shaFinish, h.lanesOf_eq, h.mem_eq]
  exact (h.putMem _).putSha x .final

theorem SameReadable.rmdFinish (out : Nat) (x : Hash5 VectorWord) :
    SameReadable (rmdFinish out x s) (rmdFinish out x u) := by
  rw [Machine.rmdFinish, Machine.rmdFinish, h.lanesOf_eq, h.mem_eq]
  exact (h.putMem _).putRmd x .final

end

/-- The outcomes are next states that agree on what is readable, or one and the same stop. -/
inductive SameAnswer : Result → Result → Prop where
  | next {t t' : State} (h : SameReadable t t') : SameAnswer (.next t) (.next t')
  | fault (f : Fault) : SameAnswer (.fault f) (.fault f)

/-- A check that answers alike for both states leaves only its two branches to compare. -/
theorem SameAnswer.ite {p : Prop} [Decidable p] {r₁ r₂ r₁' r₂' : Result} (hpos : p → SameAnswer r₁ r₁')
    (hneg : ¬p → SameAnswer r₂ r₂') : SameAnswer (if p then r₁ else r₂) (if p then r₁' else r₂') := by
  split
  case isTrue hp => exact hpos hp
  case isFalse hp => exact hneg hp

section
variable {s u : State} (h : SameReadable s u)
include h

theorem SameReadable.raise (c : Cause) (addr : Word) : SameAnswer (s.raise c addr) (u.raise c addr) :=
  .next (h.takeFault c addr)

/-! ### The shared operations answer alike -/

theorem SameReadable.aluTwo (d a b : Reg) (f : Word → Word → Word) :
    SameAnswer (aluTwo d a b f s) (aluTwo d a b f u) := by
  rw [Machine.aluTwo, Machine.aluTwo, h.written_eq, h.written_eq]
  refine .ite (fun _ => h.raise _ _) fun ha => .ite (fun _ => h.raise _ _) fun hb => .next ?_
  rw [h.lanesOf_eq, h.readV_eq (by simpa using ha), h.readV_eq (by simpa using hb)]
  exact (h.writeV d _).retire 1

theorem SameReadable.aluOne (d a : Reg) (f : Word → Word) : SameAnswer (aluOne d a f s) (aluOne d a f u) := by
  rw [Machine.aluOne, Machine.aluOne, h.written_eq]
  refine .ite (fun _ => h.raise _ _) fun ha => .next ?_
  rw [h.lanesOf_eq, h.readV_eq (by simpa using ha)]
  exact (h.writeV d _).retire 1

theorem SameReadable.engineBlock {st : EngineStatus} {f : State → State} (addr : Word)
    (hf : st = .active → SameReadable (f s) (f u)) :
    SameAnswer (engineBlock st addr f s) (engineBlock st addr f u) := by
  cases st with
  | uninit => exact h.raise _ _
  | final => exact h.raise _ _
  | active =>
    simp only [Machine.engineBlock, h.lanesOf_eq, h.admits_eq]
    exact .ite (fun _ => .next ((hf rfl).retire 2)) fun _ => h.raise _ _

theorem SameReadable.engineSave {st : EngineStatus} {f : State → State} (out : Word) (size : Nat)
    (hf : st ≠ .uninit → SameReadable (f s) (f u)) :
    SameAnswer (engineSave st out size f s) (engineSave st out size f u) := by
  have hready (hst : st ≠ .uninit) :
      SameAnswer (if s.admits out.toNat (size * s.lanesOf) then .next ((f s).retire 2) else s.raise .access out)
        (if u.admits out.toNat (size * u.lanesOf) then .next ((f u).retire 2) else u.raise .access out) := by
    rw [h.lanesOf_eq, h.admits_eq]
    exact .ite (fun _ => .next ((hf hst).retire 2)) fun _ => h.raise _ _
  cases st with
  | uninit => exact h.raise _ _
  | active => exact hready nofun
  | final => exact hready nofun

theorem SameReadable.engineTrunk {f : State → State} (out inp count : Word) (size : Nat)
    (hf : SameReadable (f s) (f u)) :
    SameAnswer (engineTrunk out inp count size f s) (engineTrunk out inp count size f u) := by
  simp only [Machine.engineTrunk, h.lanesOf_eq, h.admits_eq]
  exact .ite (fun _ => .ite (fun _ => .next (hf.retire 4)) fun _ => h.raise _ _) fun _ => h.raise _ _

/-! ### Commands and steps answer alike -/

theorem SameReadable.execLoad (v : Reg) (bo : ByteOrder) (addr : Word) :
    SameAnswer (execLoad v bo addr s) (execLoad v bo addr u) := by
  rw [Machine.execLoad, Machine.execLoad, h.admitLanes_eq, h.lanesOf_eq, h.mem_eq]
  exact .ite (fun _ => .next ((h.writeV v _).retire 2)) fun _ => h.raise _ _

theorem SameReadable.execSave (v : Reg) (bo : ByteOrder) (recSize : BitVec 12) (addr : Word) :
    SameAnswer (execSave v bo recSize addr s) (execSave v bo recSize addr u) := by
  rw [Machine.execSave, Machine.execSave, h.written_eq, h.admitLanes_eq, h.lanesOf_eq, h.mem_eq]
  refine .ite (fun _ => h.raise _ _) fun _ => .ite (fun _ => h.raise _ _) fun hv =>
    .ite (fun _ => .next ?_) fun _ => h.raise _ _
  rw [h.readV_eq (by simpa using hv)]
  exact (h.putMem _).retire 2

theorem SameReadable.execShaBlock (addr : Word) : SameAnswer (execShaBlock addr s) (execShaBlock addr u) := by
  rw [Machine.execShaBlock, Machine.execShaBlock, h.sts_eq]
  refine h.engineBlock addr fun hst => ?_
  rw [h.lanesOf_eq, h.mem_eq, h.hs_eq (by simp [hst])]
  exact h.putSha _ _

theorem SameReadable.execRmdBlock (addr : Word) : SameAnswer (execRmdBlock addr s) (execRmdBlock addr u) := by
  rw [Machine.execRmdBlock, Machine.execRmdBlock, h.str_eq]
  refine h.engineBlock addr fun hst => ?_
  rw [h.lanesOf_eq, h.mem_eq, h.hr_eq (by simp [hst])]
  exact h.putRmd _ _

theorem SameReadable.execShaSave (out : Word) : SameAnswer (execShaSave out s) (execShaSave out u) := by
  rw [Machine.execShaSave, Machine.execShaSave, h.sts_eq]
  refine h.engineSave out 32 fun hst => ?_
  rw [h.hs_eq hst]
  exact h.shaFinish _ _

theorem SameReadable.execRmdSave (out : Word) : SameAnswer (execRmdSave out s) (execRmdSave out u) := by
  rw [Machine.execRmdSave, Machine.execRmdSave, h.str_eq]
  refine h.engineSave out 20 fun hst => ?_
  rw [h.hr_eq hst]
  exact h.rmdFinish _ _

theorem SameReadable.execShaTrunk (out inp count : Word) :
    SameAnswer (execShaTrunk out inp count s) (execShaTrunk out inp count u) := by
  refine h.engineTrunk out inp count 32 ?_
  rw [h.lanesOf_eq, h.mem_eq]
  exact h.shaFinish _ _

theorem SameReadable.execRmdTrunk (out inp count : Word) :
    SameAnswer (execRmdTrunk out inp count s) (execRmdTrunk out inp count u) := by
  refine h.engineTrunk out inp count 20 ?_
  rw [h.lanesOf_eq, h.mem_eq]
  exact h.rmdFinish _ _

theorem SameReadable.exec (i : Instr) : SameAnswer (exec i s) (exec i u) := by
  cases i with
  | mirror d imm =>
    simp only [Machine.exec, execMirror, h.lanesOf_eq]
    exact .next ((h.writeV d _).retire 2)
  | add d a b => exact h.aluTwo d a b _
  | xor d a b => exact h.aluTwo d a b _
  | or d a b => exact h.aluTwo d a b _
  | and d a b => exact h.aluTwo d a b _
  | andn d a b => exact h.aluTwo d a b (fun x y => ~~~x &&& y)
  | shl d a n => exact h.aluOne d a (fun x => shl32 x n.toNat)
  | shr d a n => exact h.aluOne d a (fun x => shr32 x n.toNat)
  | rotl d a n => exact .ite (fun _ => h.raise _ _) fun _ => h.aluOne d a _
  | load v bo addr => exact h.execLoad v bo addr
  | save v bo recSize addr => exact h.execSave v bo recSize addr
  | shaInit =>
    simp only [Machine.exec, execShaInit, h.lanesOf_eq]
    exact .next ((h.putSha _ _).retire 1)
  | shaBlock addr => exact h.execShaBlock addr
  | shaSave out => exact h.execShaSave out
  | shaTrunk out inp count => exact h.execShaTrunk out inp count
  | rmdInit =>
    simp only [Machine.exec, execRmdInit, h.lanesOf_eq]
    exact .next ((h.putRmd _ _).retire 1)
  | rmdBlock addr => exact h.execRmdBlock addr
  | rmdSave out => exact h.execRmdSave out
  | rmdTrunk out inp count => exact h.execRmdTrunk out inp count

theorem SameReadable.step : SameAnswer (step s) (step u) := by
  rw [Machine.step, Machine.step, h.fetch_eq]
  cases fetch s with
  | halted => exact .fault .halted
  | idle => exact .next h
  | raises c => exact h.raise c 0
  | command i => exact h.exec i

end

/-- Settles O52: both states fetch the same, and every command checks that what it reads is readable before it reads. -/
theorem unreadableContentsDoNotMatter : Obligations.UnreadableContentsDoNotMatter := by
  intro s u h
  have hstep := h.step
  revert hstep
  generalize step s = r, step u = r'
  rintro (hnext | f)
  · exact ⟨fun t ht => ⟨_, rfl, by cases ht; exact hnext⟩, nofun⟩
  · exact ⟨nofun, fun f hf => hf⟩

end Sys2Proof.Machine
end

section
/-! SUPPORT. How the statuses of the two engines move (10_state.md R33): an equation per status for the shared operations,
beside `engineBlock_active`, `engineSave_ready` and `engineTrunk_admitted`. -/

namespace Sys2Proof.Machine

theorem engineBlock_uninit {st : EngineStatus} (hst : st = .uninit) (addr : Word) (f : State → State) (s : State) :
    engineBlock st addr f s = .next (s.takeFault .unwritten 0) := by
  subst hst
  rfl

theorem engineBlock_final {st : EngineStatus} (hst : st = .final) (addr : Word) (f : State → State) (s : State) :
    engineBlock st addr f s = .next (s.takeFault .sequence 0) := by
  subst hst
  rfl

theorem engineSave_uninit {st : EngineStatus} (hst : st = .uninit) (out : Word) (size : Nat) (f : State → State)
    (s : State) : engineSave st out size f s = .next (s.takeFault .unwritten 0) := by
  subst hst
  rfl

theorem engineBlock_of_active {st : EngineStatus} (hst : st = .active) {addr : Word} (f : State → State) {s : State}
    (h : s.admits addr.toNat (64 * s.lanesOf) = true) : engineBlock st addr f s = .next ((f s).retire 2) := by
  subst hst
  exact engineBlock_active h

/-! ### The engine commands as the shared operations -/

theorem exec_shaBlock (addr : Word) (s : State) : exec (.shaBlock addr) s =
    engineBlock s.sts addr (fun s => s.putSha (shaGroup s.lanesOf s.mem addr.toNat s.hs) .active) s := rfl

theorem exec_shaSave (out : Word) (s : State) : exec (.shaSave out) s =
    engineSave s.sts out 32 (fun s => shaFinish out.toNat s.hs s) s := rfl

theorem exec_shaTrunk (out inp count : Word) (s : State) : exec (.shaTrunk out inp count) s =
    engineTrunk out inp count 32
      (fun s => shaFinish out.toNat (shaTrunkState s.lanesOf s.mem inp.toNat count.toNat) s) s := rfl

theorem exec_rmdBlock (addr : Word) (s : State) : exec (.rmdBlock addr) s =
    engineBlock s.str addr (fun s => s.putRmd (rmdGroup s.lanesOf s.mem addr.toNat s.hr) .active) s := rfl

theorem exec_rmdSave (out : Word) (s : State) : exec (.rmdSave out) s =
    engineSave s.str out 20 (fun s => rmdFinish out.toNat s.hr s) s := rfl

theorem exec_rmdTrunk (out inp count : Word) (s : State) : exec (.rmdTrunk out inp count) s =
    engineTrunk out inp count 20
      (fun s => rmdFinish out.toNat (rmdTrunkState s.lanesOf s.mem inp.toNat count.toNat) s) s := rfl

/-- Settles O43: each clause is the shared operation's equation for that status; the status after is the one the effect
puts. -/
theorem engineStatusTransitions : Obligations.EngineStatusTransitions := by
  intro s
  simp only [exec_shaBlock, exec_shaSave, exec_shaTrunk, exec_rmdBlock, exec_rmdSave, exec_rmdTrunk]
  refine ⟨⟨_, rfl, rfl⟩, ⟨_, rfl, rfl⟩, rfl, rfl, fun x => ⟨?_, ?_, ?_, ?_, ?_, ?_, ?_, ?_⟩,
    fun out inp count hinp => ?_⟩
  · exact fun hst => ⟨engineBlock_uninit hst .., engineSave_uninit hst ..⟩
  · exact fun hst => ⟨engineBlock_uninit hst .., engineSave_uninit hst ..⟩
  · exact fun hst => engineBlock_final hst ..
  · exact fun hst => engineBlock_final hst ..
  · exact fun hst hadm => ⟨_, engineBlock_of_active hst _ hadm, rfl⟩
  · exact fun hst hadm => ⟨_, engineBlock_of_active hst _ hadm, rfl⟩
  · exact fun hst hadm => ⟨_, engineSave_ready hst hadm, rfl⟩
  · exact fun hst hadm => ⟨_, engineSave_ready hst hadm, rfl⟩
  · exact ⟨fun hout => ⟨_, engineTrunk_admitted hinp hout, rfl⟩, fun hout => ⟨_, engineTrunk_admitted hinp hout, rfl⟩⟩

end Sys2Proof.Machine
end

section
/-! SUPPORT. What a command does to `pc`, the command sequence and the written flags, read off `Completes` (10_state.md R30,
R31; 30_encoding.md R93). -/

namespace Sys2Proof.Machine

theorem Effect.pc_eq {s u : State} (h : Effect s u) : u.pc = s.pc := by
  cases h <;> rfl

theorem Effect.cmds_eq {s u : State} (h : Effect s u) : u.cmds = s.cmds := by
  cases h <;> rfl

theorem Effect.written_of_written {s u : State} (h : Effect s u) {k : Reg} (hk : s.written k = true) :
    u.written k = true := by
  cases h with
  | vector d x hx => simp [State.writeV_written, hk]
  | store cs hc => exact hk
  | sha cs h st hc hst hh => exact hk
  | rmd cs h st hc hst hh => exact hk

theorem completes_of_exec {i : Instr} {s t : State} (h : exec i s = .next t) :
    Completes (packetLength i.opcode) s t := by
  obtain ⟨t', ht', hc⟩ := exec_cases i s
  cases h.symm.trans ht'
  exact hc

theorem step_eq_exec {s : State} {i : Instr} {rest : List Word} (hrun : s.halted = false)
    (hdec : decode s.cmds = .command i rest) : step s = exec i s := by
  simp [step, fetch, hrun, hdec]

/-- Settles O12: the fault entry halts and keeps both; the effect keeps both and lets the engine run, and the packet that
is then retired is what the decoder consumed. -/
theorem pcAdvancesByPacketLength : Obligations.PcAdvancesByPacketLength := by
  intro s t i rest hrun hdec hstep
  rw [step_eq_exec hrun hdec] at hstep
  obtain ⟨hdr, args, -, -, -, -, hrest⟩ := decode_command hdec
  rcases completes_of_exec hstep with ⟨c, addr, -, rfl⟩ | ⟨u, hu, rfl⟩
  · exact .inl ⟨s.takeFault_halted c addr, rfl, rfl⟩
  · refine .inr ⟨hu.halted_eq.trans hrun, ?_, ?_⟩
    · rw [State.retire_pc, hu.pc_eq]
    · rw [State.retire_cmds, hu.cmds_eq, hrest]

/-- Settles O49: of a step's ends only the write of a vector register touches a flag, and it sets one. -/
theorem stepsNeverClearWrittenFlags : Obligations.StepsNeverClearWrittenFlags := by
  intro s t k hstep hk
  obtain ⟨-, rfl | ⟨len, ⟨c, addr, -, rfl⟩ | ⟨u, hu, rfl⟩⟩⟩ := step_completes hstep
  · exact hk
  · exact hk
  · exact hu.written_of_written hk

end Sys2Proof.Machine
end

section
/-! SUPPORT. Which state each part of the command set may touch (10_state.md R30, R32, R34; 20_memory.md R60): a fault and
the retirement touch none of it, so it is the effect of each shared operation that decides. -/

namespace Sys2Proof.Machine

/-- What a command of the family `f` may change from `s` to `t`, `stores` saying whether it writes memory. -/
def TouchesOnly (f : Family) (stores : Bool) (s t : State) : Prop :=
  ((f = .primitive ∨ f = .transpose) → SameSha s t ∧ SameRmd s t) ∧
    (f = .sha → SameVectors s t ∧ SameRmd s t) ∧ (f = .rmd → SameVectors s t ∧ SameSha s t) ∧
    (stores = false → SameBytes s t) ∧ (stores = true → SameVectors s t)

theorem sameVectors_of_eq {s t : State} (hv : t.v = s.v) (hvw : t.vw = s.vw) : SameVectors s t := by
  intro k
  simp only [State.readV, State.written, hv, hvw, and_self]

theorem touchesOnly_takeFault (f : Family) (stores : Bool) (s : State) (c : Cause) (addr : Word) :
    TouchesOnly f stores s (s.takeFault c addr) :=
  have hv : SameVectors s (s.takeFault c addr) := sameVectors_of_eq rfl rfl
  ⟨fun _ => ⟨⟨rfl, rfl⟩, rfl, rfl⟩, fun _ => ⟨hv, rfl, rfl⟩, fun _ => ⟨hv, rfl, rfl⟩, fun _ _ => rfl, fun _ => hv⟩

theorem touchesOnly_writeV {f : Family} (hf : f = .primitive ∨ f = .transpose) (s : State) (d : Reg) (x : VectorWord)
    (len : Nat) : TouchesOnly f false s ((s.writeV d x).retire len) := by
  obtain ⟨-, hsha, hrmd, hbytes, -⟩ := registerFrame_writeV_retire s d x len
  refine ⟨fun _ => ⟨hsha, hrmd⟩, ?_, ?_, fun _ => hbytes, nofun⟩
  · rintro rfl
    simp at hf
  · rintro rfl
    simp at hf

theorem touchesOnly_putMem (s : State) (m : Memory) (len : Nat) :
    TouchesOnly .transpose true s ((s.putMem m).retire len) :=
  ⟨fun _ => ⟨⟨rfl, rfl⟩, rfl, rfl⟩, nofun, nofun, nofun, fun _ => sameVectors_of_eq rfl rfl⟩

theorem touchesOnly_putSha {s : State} {m : Memory} {stores : Bool} (hm : stores = false → m = s.mem)
    (h : Hash8 VectorWord) (st : EngineStatus) (len : Nat) :
    TouchesOnly .sha stores s (((s.putMem m).putSha h st).retire len) :=
  have hv : SameVectors s (((s.putMem m).putSha h st).retire len) := sameVectors_of_eq rfl rfl
  ⟨nofun, fun _ => ⟨hv, rfl, rfl⟩, nofun, fun hst _ => congrArg (Memory.read · _) (hm hst), fun _ => hv⟩

theorem touchesOnly_putRmd {s : State} {m : Memory} {stores : Bool} (hm : stores = false → m = s.mem)
    (h : Hash5 VectorWord) (st : EngineStatus) (len : Nat) :
    TouchesOnly .rmd stores s (((s.putMem m).putRmd h st).retire len) :=
  have hv : SameVectors s (((s.putMem m).putRmd h st).retire len) := sameVectors_of_eq rfl rfl
  ⟨nofun, nofun, fun _ => ⟨hv, rfl, rfl⟩, fun hst _ => congrArg (Memory.read · _) (hm hst), fun _ => hv⟩

theorem touchesOnly_shaFinish (out : Nat) (x : Hash8 VectorWord) (s : State) (len : Nat) :
    TouchesOnly .sha true s ((shaFinish out x s).retire len) :=
  touchesOnly_putSha (stores := true) nofun ..

theorem touchesOnly_rmdFinish (out : Nat) (x : Hash5 VectorWord) (s : State) (len : Nat) :
    TouchesOnly .rmd true s ((rmdFinish out x s).retire len) :=
  touchesOnly_putRmd (stores := true) nofun ..

/-! ### The shared operations -/

/-- The outcome is a next state to which a command of the family `f` may go from `s`. -/
def AnswerTouchesOnly (f : Family) (stores : Bool) (s : State) (r : Result) : Prop :=
  ∃ t, r = .next t ∧ TouchesOnly f stores s t

theorem answerTouchesOnly_raise (f : Family) (stores : Bool) (s : State) (c : Cause) (addr : Word) :
    AnswerTouchesOnly f stores s (s.raise c addr) :=
  ⟨_, rfl, touchesOnly_takeFault f stores s c addr⟩

theorem AnswerTouchesOnly.ite {f : Family} {stores : Bool} {s : State} {p : Prop} [Decidable p] {r r' : Result}
    (hpos : AnswerTouchesOnly f stores s r) (hneg : AnswerTouchesOnly f stores s r') :
    AnswerTouchesOnly f stores s (if p then r else r') := by
  split
  · exact hpos
  · exact hneg

theorem answerTouchesOnly_aluTwo (d a b : Reg) (f : Word → Word → Word) (s : State) :
    AnswerTouchesOnly .primitive false s (aluTwo d a b f s) :=
  .ite (answerTouchesOnly_raise ..) (.ite (answerTouchesOnly_raise ..) ⟨_, rfl, touchesOnly_writeV (.inl rfl) ..⟩)

theorem answerTouchesOnly_aluOne (d a : Reg) (f : Word → Word) (s : State) :
    AnswerTouchesOnly .primitive false s (aluOne d a f s) :=
  .ite (answerTouchesOnly_raise ..) ⟨_, rfl, touchesOnly_writeV (.inl rfl) ..⟩

section
variable {f : Family} {stores : Bool} {effect : State → State} {s : State}

theorem answerTouchesOnly_engineBlock (st : EngineStatus) (addr : Word)
    (h : TouchesOnly f stores s ((effect s).retire 2)) :
    AnswerTouchesOnly f stores s (engineBlock st addr effect s) := by
  cases st with
  | uninit => exact answerTouchesOnly_raise ..
  | active => exact .ite ⟨_, rfl, h⟩ (answerTouchesOnly_raise ..)
  | final => exact answerTouchesOnly_raise ..

theorem answerTouchesOnly_engineSave (st : EngineStatus) (out : Word) (size : Nat)
    (h : TouchesOnly f stores s ((effect s).retire 2)) :
    AnswerTouchesOnly f stores s (engineSave st out size effect s) := by
  cases st with
  | uninit => exact answerTouchesOnly_raise ..
  | active => exact .ite ⟨_, rfl, h⟩ (answerTouchesOnly_raise ..)
  | final => exact .ite ⟨_, rfl, h⟩ (answerTouchesOnly_raise ..)

theorem answerTouchesOnly_engineTrunk (out inp count : Word) (size : Nat)
    (h : TouchesOnly f stores s ((effect s).retire 4)) :
    AnswerTouchesOnly f stores s (engineTrunk out inp count size effect s) :=
  .ite (.ite ⟨_, rfl, h⟩ (answerTouchesOnly_raise ..)) (answerTouchesOnly_raise ..)

end

/-- Every command touches only what its family and its kind may. -/
theorem exec_touchesOnly (i : Instr) (s : State) :
    AnswerTouchesOnly (familyOf i) (storesMemory i) s (exec i s) := by
  cases i with
  | mirror d imm => exact ⟨_, rfl, touchesOnly_writeV (.inl rfl) ..⟩
  | add d a b => exact answerTouchesOnly_aluTwo d a b _ s
  | xor d a b => exact answerTouchesOnly_aluTwo d a b _ s
  | or d a b => exact answerTouchesOnly_aluTwo d a b _ s
  | and d a b => exact answerTouchesOnly_aluTwo d a b _ s
  | andn d a b => exact answerTouchesOnly_aluTwo d a b (fun x y => ~~~x &&& y) s
  | shl d a n => exact answerTouchesOnly_aluOne d a (fun x => shl32 x n.toNat) s
  | shr d a n => exact answerTouchesOnly_aluOne d a (fun x => shr32 x n.toNat) s
  | rotl d a n => exact .ite (answerTouchesOnly_raise ..) (answerTouchesOnly_aluOne d a _ s)
  | load v bo addr => exact .ite ⟨_, rfl, touchesOnly_writeV (.inr rfl) ..⟩ (answerTouchesOnly_raise ..)
  | save v bo recSize addr =>
    exact .ite (answerTouchesOnly_raise ..) (.ite (answerTouchesOnly_raise ..)
      (.ite ⟨_, rfl, touchesOnly_putMem ..⟩ (answerTouchesOnly_raise ..)))
  | shaInit => exact ⟨_, rfl, touchesOnly_putSha (m := s.mem) (fun _ => rfl) ..⟩
  | shaBlock addr =>
    rw [exec_shaBlock]
    exact answerTouchesOnly_engineBlock _ addr (touchesOnly_putSha (m := s.mem) (fun _ => rfl) ..)
  | shaSave out =>
    rw [exec_shaSave]
    exact answerTouchesOnly_engineSave _ out 32 (touchesOnly_shaFinish ..)
  | shaTrunk out inp count =>
    rw [exec_shaTrunk]
    exact answerTouchesOnly_engineTrunk out inp count 32 (touchesOnly_shaFinish ..)
  | rmdInit => exact ⟨_, rfl, touchesOnly_putRmd (m := s.mem) (fun _ => rfl) ..⟩
  | rmdBlock addr =>
    rw [exec_rmdBlock]
    exact answerTouchesOnly_engineBlock _ addr (touchesOnly_putRmd (m := s.mem) (fun _ => rfl) ..)
  | rmdSave out =>
    rw [exec_rmdSave]
    exact answerTouchesOnly_engineSave _ out 20 (touchesOnly_rmdFinish ..)
  | rmdTrunk out inp count =>
    rw [exec_rmdTrunk]
    exact answerTouchesOnly_engineTrunk out inp count 20 (touchesOnly_rmdFinish ..)

/-- Settles O51: `exec_touchesOnly` says so of the one state a command answers. -/
theorem commandsTouchOnlyTheirState : Obligations.CommandsTouchOnlyTheirState := by
  intro i s t hexec
  obtain ⟨t', ht', htouch⟩ := exec_touchesOnly i s
  cases hexec.symm.trans ht'
  exact htouch

end Sys2Proof.Machine
end

section
/-! SUPPORT. The host's registers (10_state.md R36 to R41; 60_exceptions.md R320). -/

namespace Sys2Proof.Machine

/-- CFG is `0x2000 | log2(W)` (R38). -/
theorem cfgWord_eq (w : Width) : cfgWord w = 0x2000 ||| BitVec.ofNat 32 w.log2 := by
  cases w <;> decide

theorem two_pow_log2 (w : Width) : 2 ^ w.log2 = w.lanes := by
  cases w <;> rfl

theorem portReadReg_reserved (s : State) {index : Nat} (h : 6 ≤ index) : portReadReg s index = 0 := by
  obtain ⟨n, rfl⟩ := Nat.exists_eq_add_of_le' h
  rfl

theorem portWriteReg_of_ne_zero (s : State) {index : Nat} (h : index ≠ 0) (w : Word) :
    portWriteReg s index w = s := by
  rcases portWriteReg_cases s index w with hsame | ⟨h0, -⟩
  · exact hsame
  · exact absurd h0 h

theorem portWriteReg_cmd_of_running {s : State} (hrun : s.halted = false) (w : Word) :
    portWriteReg s 0 w = { s with cmds := s.cmds ++ [w] } := by
  simp [portWriteReg, hrun]

/-- Settles O14: registers 0 to 5 by definition, CFG by `cfgWord_eq`. -/
theorem hostRegisterReads : Obligations.HostRegisterReads := fun s =>
  ⟨rfl, rfl, cfgWord_eq s.inst.width, two_pow_log2 s.inst.width, rfl, rfl, rfl,
    fun _ h => ⟨portReadReg_reserved s h, portWriteReg_of_ne_zero s (by omega)⟩⟩

/-- Settles O55: of a host write's two outcomes, the one that changes the state is at index 0. -/
theorem hostWritesOnlyCmd : Obligations.HostWritesOnlyCmd :=
  fun s _ w h => portWriteReg_of_ne_zero s h w

/-- Settles O15, by induction on the words: each write appends one, and the engine still runs. -/
theorem cmdWritesAppend : Obligations.CmdWritesAppend := by
  intro s ws hrun
  induction ws generalizing s with
  | nil => simp [portWriteCmd]
  | cons w ws ih =>
    calc portWriteCmd s (w :: ws)
        = portWriteCmd (portWriteReg s 0 w) ws := rfl
      _ = portWriteCmd { s with cmds := s.cmds ++ [w] } ws := by rw [portWriteReg_cmd_of_running hrun]
      _ = { s with cmds := s.cmds ++ [w] ++ ws } := ih _ hrun
      _ = { s with cmds := s.cmds ++ w :: ws } := by rw [List.append_assoc, List.singleton_append]

end Sys2Proof.Machine
end

section
/-! SUPPORT. The canonical form of data memory is unique (20_memory.md R60, R62): what a canonical memory reads gives its
first listed address, that byte, and what the rest of it reads. -/

namespace Sys2Proof.Machine

theorem Memory.wfFrom_cons {lo k : Nat} {x : Byte} {m : Memory} :
    Memory.wfFrom lo ((k, x) :: m) = true ↔ lo ≤ k ∧ k < 2 ^ 32 ∧ x ≠ 0 ∧ Memory.wfFrom (k + 1) m = true := by
  simp only [Memory.wfFrom, Bool.and_eq_true, decide_eq_true_eq, and_assoc]

@[simp] theorem Memory.read_cons_self (k : Nat) (x : Byte) (m : Memory) : Memory.read ((k, x) :: m) k = x :=
  if_pos rfl

theorem Memory.read_cons_of_ne {a k : Nat} (h : a ≠ k) (x : Byte) (m : Memory) :
    Memory.read ((k, x) :: m) a = m.read a :=
  if_neg h

theorem Memory.le_of_read_ne_zero {lo a : Nat} {m : Memory} (hm : Memory.wfFrom lo m = true) (ha : m.read a ≠ 0) :
    lo ≤ a := by
  induction m generalizing lo with
  | nil => exact absurd rfl ha
  | cons c m ih =>
    obtain ⟨k, x⟩ := c
    obtain ⟨hlo, -, -, htail⟩ := Memory.wfFrom_cons.1 hm
    by_cases hak : a = k
    · exact hak ▸ hlo
    · rw [Memory.read_cons_of_ne hak] at ha
      have hka : k + 1 ≤ a := ih htail ha
      omega

/-- What the rest of a canonical memory reads, by what the whole reads: its first address is not listed again. -/
theorem Memory.read_tail {k : Nat} {m : Memory} (hm : Memory.wfFrom (k + 1) m = true) (x : Byte) (a : Nat) :
    m.read a = if a = k then 0 else Memory.read ((k, x) :: m) a := by
  split
  next hak =>
    by_contra hne
    have hka : k + 1 ≤ a := Memory.le_of_read_ne_zero hm hne
    omega
  next hak => rw [Memory.read_cons_of_ne hak]

theorem Memory.eq_nil_of_read_eq_zero {lo : Nat} {m : Memory} (hm : Memory.wfFrom lo m = true)
    (h : ∀ a, m.read a = 0) : m = [] := by
  cases m with
  | nil => rfl
  | cons c m =>
    obtain ⟨k, x⟩ := c
    obtain ⟨-, -, hx, -⟩ := Memory.wfFrom_cons.1 hm
    exact absurd ((Memory.read_cons_self k x m).symm.trans (h k)) hx

theorem Memory.eq_of_read_eq {lo : Nat} {m m' : Memory} (hm : Memory.wfFrom lo m = true)
    (hm' : Memory.wfFrom lo m' = true) (h : ∀ a, m.read a = m'.read a) : m = m' := by
  induction m generalizing lo m' with
  | nil => exact (Memory.eq_nil_of_read_eq_zero hm' fun a => (h a).symm).symm
  | cons c m ih =>
    cases m' with
    | nil => exact Memory.eq_nil_of_read_eq_zero hm h
    | cons c' m' =>
      obtain ⟨k, x⟩ := c
      obtain ⟨k', x'⟩ := c'
      obtain ⟨-, hk, hx, htail⟩ := Memory.wfFrom_cons.1 hm
      obtain ⟨-, hk', hx', htail'⟩ := Memory.wfFrom_cons.1 hm'
      have hle : k ≤ k' := Memory.le_of_read_ne_zero (Memory.wfFrom_cons.2 ⟨le_rfl, hk, hx, htail⟩)
        (by rwa [h, Memory.read_cons_self])
      have hge : k' ≤ k := Memory.le_of_read_ne_zero (Memory.wfFrom_cons.2 ⟨le_rfl, hk', hx', htail'⟩)
        (by rwa [← h, Memory.read_cons_self])
      obtain rfl : k = k' := le_antisymm hle hge
      have hxx' : x = x' := by simpa using h k
      have hrest : m = m' := ih htail htail' fun a => by
        rw [Memory.read_tail htail x, Memory.read_tail htail' x', h]
      rw [hxx', hrest]

/-- Settles O31, by `Memory.eq_of_read_eq` at the bound 0: induction on the list, where each first address is the least one
that does not read 0. -/
theorem canonicalMemoryIsExtensional : Obligations.CanonicalMemoryIsExtensional :=
  fun _ _ hm hm' h => Memory.eq_of_read_eq hm hm' h

end Sys2Proof.Machine
end

section
/-! SUPPORT. Every action of the host keeps the invariant of its instance (60_exceptions.md R320; 70_reset_and_hazards.md
R350), and every move of a system keeps the system's (20_memory.md R79). -/

namespace Sys2Proof.Machine

/-- A word is appended only while the engine runs, where the fault registers are 0 whatever the header is. -/
theorem portWriteReg_inv {s : State} (hs : s.Inv = true) (index : Nat) (w : Word) :
    (portWriteReg s index w).Inv = true := by
  rcases portWriteReg_cases s index w with hsame | ⟨-, hrun, happ⟩
  · rwa [hsame]
  · rw [happ, State.inv_iff]
    obtain ⟨⟨hv, hhs, hhr, hmem⟩, hfault⟩ := (State.inv_iff s).1 hs
    have hrun' : ({ s with cmds := s.cmds ++ [w] } : State).halted = false := hrun
    rw [State.faultRegsOk_of_running hrun] at hfault
    exact ⟨⟨hv, hhs, hhr, hmem⟩, (State.faultRegsOk_of_running hrun').2 hfault⟩

theorem State.mem_wf_of_inv {s : State} (hs : s.Inv = true) : s.mem.wf = true :=
  ((State.inv_iff s).1 hs).1.mem

theorem portWriteMem_inv {s t : State} {a : Nat} {b : Byte} (hs : s.Inv = true) (h : portWriteMem s a b = some t) :
    t.Inv = true := by
  obtain ⟨hadm, rfl⟩ := portWriteMem_eq_some.1 h
  exact State.putMem_Inv hs (Memory.wf_write b ((State.admits_one s a).1 hadm).1 (State.mem_wf_of_inv hs))

theorem portReset_inv {s : State} (hs : s.Inv = true) : (portReset s).Inv = true :=
  State.afterReset_inv s.inst (State.mem_wf_of_inv hs)

/-! ### Systems -/

theorem System.inv_iff (y : System) :
    y.Inv = true ↔ y.mem.wf = true ∧ ∀ e ∈ y.engines, (e.putMem y.mem).Inv = true := by
  simp only [System.Inv, Bool.and_eq_true, List.all_eq_true]

theorem System.view_inv {y : System} {k : Nat} {s : State} (hy : y.Inv = true) (h : y.view k = some s) :
    s.Inv = true := by
  obtain ⟨e, he, rfl⟩ := System.view_eq_some.1 h
  exact ((System.inv_iff y).1 hy).2 e (List.mem_of_getElem? he)

/-- The instances that did not move have the invariant over the moved one's memory too, since that is canonical. -/
theorem System.commit_inv {y : System} {t : State} (hy : y.Inv = true) (ht : t.Inv = true) (k : Nat) :
    (y.commit k t).Inv = true := by
  refine (System.inv_iff _).2 ⟨State.mem_wf_of_inv ht, fun e he => ?_⟩
  rcases List.mem_or_eq_of_mem_set he with hold | rfl
  · have hview : (e.putMem y.mem).Inv = true := ((System.inv_iff y).1 hy).2 e hold
    have hmoved : ((e.putMem y.mem).putMem t.mem).Inv = true := State.putMem_Inv hview (State.mem_wf_of_inv ht)
    exact hmoved
  · exact ht

theorem System.afterReset_inv (insts : List Instance) {m : Memory} (hm : m.wf = true) :
    ({ engines := insts.map fun inst => State.afterReset inst m, mem := m } : System).Inv = true := by
  refine (System.inv_iff _).2 ⟨hm, fun e he => ?_⟩
  obtain ⟨inst, -, rfl⟩ := List.mem_map.1 he
  exact State.afterReset_inv inst hm

theorem System.move_inv {y y' : System} {mv : Move} (hy : y.Inv = true) (h : y.move mv = some y') :
    y'.Inv = true := by
  obtain ⟨s, t, hview, rfl, hact⟩ := System.move_cases h
  have hs : s.Inv = true := System.view_inv hy hview
  refine System.commit_inv hy ?_ _
  rcases hact with hstep | ⟨index, w, rfl⟩ | ⟨a, b, hwrite⟩ | rfl
  · exact stepKeepsInvariant s t hs hstep
  · exact portWriteReg_inv hs index w
  · exact portWriteMem_inv hs hwrite
  · exact portReset_inv hs

/-- Settles O59: reset gives the invariant to each instance; a move acts on one instance, by a step or a host action that
keeps its invariant, and the commit keeps the others'. -/
theorem systemMovesKeepInvariant : Obligations.SystemMovesKeepInvariant :=
  ⟨fun insts _ hm => System.afterReset_inv insts hm, fun _ _ _ hy h => System.move_inv hy h⟩

end Sys2Proof.Machine
end

section
/-! SUPPORT. A step of a running engine is the command at `pc` (30_encoding.md R98; 70_reset_and_hazards.md R362). -/

namespace Sys2Proof.Machine

/-- Settles O7, by `step_eq_exec`: a running engine fetches the command decoded at `pc`. -/
theorem stepRunsDecodedCommand : Obligations.StepRunsDecodedCommand :=
  fun _ _ _ hrun hdec => step_eq_exec hrun hdec

end Sys2Proof.Machine
end

section
/-! SUPPORT. A set of header bits as the union of fields, and what two headers that agree on it have in common: that a
header is what its format's fields say (30_encoding.md R91). -/

namespace Sys2Proof

/-- The mask of the `n` header bits from `lo` on. -/
def fieldMask (lo n : Nat) : Word := placeField (BitVec.allOnes n) lo

/-- The mask of a list of fields, each given by its lowest bit and its width. -/
def layoutMask : List (Nat × Nat) → Word
  | [] => 0
  | f :: fs => fieldMask f.1 f.2 ||| layoutMask fs

theorem getLsbD_fieldMask {i : Nat} (hi : i < 32) (lo n : Nat) :
    (fieldMask lo n).getLsbD i = decide (lo ≤ i ∧ i < lo + n) := by
  simp only [fieldMask, placeField, BitVec.getLsbD_shiftLeft, BitVec.getLsbD_setWidth, BitVec.getLsbD_allOnes]
  grind

/-- Words agree under a field's mask exactly when they hold the same value in the field. -/
theorem and_fieldMask_eq_iff {lo n : Nat} (h : lo + n ≤ 32) (x y : Word) :
    x &&& fieldMask lo n = y &&& fieldMask lo n ↔ x.extractLsb' lo n = y.extractLsb' lo n := by
  constructor
  · intro hxy
    refine BitVec.eq_of_getLsbD_eq fun i hi => ?_
    have hbit := congrArg (BitVec.getLsbD · (lo + i)) hxy
    simpa only [BitVec.getLsbD_and, getLsbD_fieldMask (show lo + i < 32 by omega), Nat.le_add_right,
      Nat.add_lt_add_iff_left, hi, BitVec.getLsbD_extractLsb', and_self, decide_true, Bool.and_true,
      Bool.true_and] using hbit
  · intro hxy
    refine BitVec.eq_of_getLsbD_eq fun i hi => ?_
    rw [BitVec.getLsbD_and, BitVec.getLsbD_and, getLsbD_fieldMask hi]
    by_cases hin : lo ≤ i ∧ i < lo + n
    · have hbit := congrArg (BitVec.getLsbD · (i - lo)) hxy
      simp only [BitVec.getLsbD_extractLsb', show lo + (i - lo) = i by omega,
        show i - lo < n by omega, decide_true, Bool.true_and] at hbit
      rw [hbit]
    · simp only [hin, decide_false, Bool.and_false]

theorem and_or_eq_iff (x y a b : Word) :
    x &&& (a ||| b) = y &&& (a ||| b) ↔ x &&& a = y &&& a ∧ x &&& b = y &&& b := by
  constructor
  · intro h
    have under {c : Word} (hc : (a ||| b) &&& c = c) : x &&& c = y &&& c := by
      rw [← hc, ← BitVec.and_assoc, h, BitVec.and_assoc]
    exact ⟨under (by ext i hi; cases ha : a[i] <;> simp [ha]), under (by ext i hi; cases hb : b[i] <;> simp [hb])⟩
  · rintro ⟨ha, hb⟩
    rw [BitVec.and_or_distrib_left, BitVec.and_or_distrib_left, ha, hb]

/-- Words agree under the mask of a list of fields exactly when they hold the same value in each. -/
theorem and_layoutMask_eq_iff {fs : List (Nat × Nat)} (hfs : ∀ f ∈ fs, f.1 + f.2 ≤ 32) (x y : Word) :
    x &&& layoutMask fs = y &&& layoutMask fs ↔ ∀ f ∈ fs, x.extractLsb' f.1 f.2 = y.extractLsb' f.1 f.2 := by
  induction fs with
  | nil => simp [layoutMask]
  | cons f fs ih =>
    rw [List.forall_mem_cons] at hfs ⊢
    rw [layoutMask, and_or_eq_iff, and_fieldMask_eq_iff hfs.1, ih hfs.2]

/-- Words that agree in fields that fill the word are equal. -/
theorem eq_of_fields_eq {fs : List (Nat × Nat)} (hfs : ∀ f ∈ fs, f.1 + f.2 ≤ 32)
    (hfill : layoutMask fs = BitVec.allOnes 32) {x y : Word}
    (h : ∀ f ∈ fs, x.extractLsb' f.1 f.2 = y.extractLsb' f.1 f.2) : x = y := by
  simpa only [hfill, BitVec.and_allOnes] using (and_layoutMask_eq_iff hfs x y).2 h

/-! ### The header rebuilt from its fields -/

/-- The bit `bo` is read back from the accessor's answer (R96). -/
theorem extract_bo_eq_boBit (hdr : Word) : hdr.extractLsb' 20 1 = boBit (hdrBo hdr) := by
  ext i hi
  obtain rfl : i = 0 := by omega
  rw [hdrBo, BitVec.getElem_extractLsb', Nat.add_zero]
  cases hdr.getLsbD 20 <;> simp [boBit]

section
variable {op : Opcode} {hdr : Word} (hop : hdrOp hdr = opcodeBits op)
include hop

theorem formatR_fields (hz : hdr.extractLsb' 0 6 = 0) :
    formatR op (hdrD hdr) (hdrA hdr) (hdrB hdr) (hdrN hdr) = hdr := by
  obtain ⟨h1, h2, h3, h4, h5, h6⟩ := fields_formatR op (hdrD hdr) (hdrA hdr) (hdrB hdr) (hdrN hdr)
  refine eq_of_fields_eq (fs := [(26, 6), (21, 5), (16, 5), (11, 5), (6, 5), (0, 6)]) (by decide) (by decide) ?_
  simpa only [List.forall_mem_cons, List.not_mem_nil, false_imp_iff, implies_true, and_true] using
    ⟨h1.trans hop.symm, BitVec.toFin_inj.1 h2, BitVec.toFin_inj.1 h3, BitVec.toFin_inj.1 h4, h5, h6.trans hz.symm⟩

theorem formatI_fields (hz : hdr.extractLsb' 0 21 = 0) : formatI op (hdrD hdr) = hdr := by
  obtain ⟨h1, h2, h3⟩ := fields_formatI op (hdrD hdr)
  refine eq_of_fields_eq (fs := [(26, 6), (21, 5), (0, 21)]) (by decide) (by decide) ?_
  simpa only [List.forall_mem_cons, List.not_mem_nil, false_imp_iff, implies_true, and_true] using
    ⟨h1.trans hop.symm, BitVec.toFin_inj.1 h2, h3.trans hz.symm⟩

theorem formatM_fields (hz : hdr.extractLsb' 0 8 = 0) :
    formatM op (hdrD hdr) (hdrBo hdr) (hdrRec hdr) = hdr := by
  obtain ⟨h1, h2, h3, h4, h5⟩ := fields_formatM op (hdrD hdr) (hdrBo hdr) (hdrRec hdr)
  have hbo := (extract_bo_eq_boBit _).trans ((congrArg boBit h3).trans (extract_bo_eq_boBit hdr).symm)
  refine eq_of_fields_eq (fs := [(26, 6), (21, 5), (20, 1), (8, 12), (0, 8)]) (by decide) (by decide) ?_
  simpa only [List.forall_mem_cons, List.not_mem_nil, false_imp_iff, implies_true, and_true] using
    ⟨h1.trans hop.symm, BitVec.toFin_inj.1 h2, hbo, h4, h5.trans hz.symm⟩

theorem formatE_fields (hz : hdr.extractLsb' 0 26 = 0) : formatE op = hdr := by
  obtain ⟨h1, h2⟩ := fields_formatE op
  refine eq_of_fields_eq (fs := [(26, 6), (0, 26)]) (by decide) (by decide) ?_
  simpa only [List.forall_mem_cons, List.not_mem_nil, false_imp_iff, implies_true, and_true] using
    ⟨h1.trans hop.symm, h2.trans hz.symm⟩

end

end Sys2Proof
end

section
/-! SUPPORT. The decoder's outcomes, one lemma each (30_encoding.md R98), and what its field checks accept: the packets
the encoder writes, and no others. -/

namespace Sys2Proof

/-! ### The outcomes of `decode` -/

theorem decode_reservedOpcode {hdr : Word} (h : opcodeOf? (hdrOp hdr) = none) (args : List Word) :
    decode (hdr :: args) = .rejected .reservedOpcode := by
  simp only [decode, h]

section
variable {hdr : Word} {args : List Word} {op : Opcode} (hop : hdrOp hdr = opcodeBits op)
include hop

theorem decode_truncated (hlen : args.length + 1 < packetLength op) :
    decode (hdr :: args) = .rejected .truncated := by
  simp only [decode, hop, opcodeOf?_opcodeBits, hlen, if_true]

theorem decode_of_fields_ok (hlen : packetLength op ≤ args.length + 1) {i : Instr}
    (h : decodeFields op hdr args = .ok i) :
    decode (hdr :: args) = .command i (args.drop (packetLength op - 1)) := by
  simp only [decode, hop, opcodeOf?_opcodeBits, Nat.not_lt.2 hlen, if_false, h]

theorem decode_of_fields_error (hlen : packetLength op ≤ args.length + 1) {why : Reject}
    (h : decodeFields op hdr args = .error why) : decode (hdr :: args) = .rejected why := by
  simp only [decode, hop, opcodeOf?_opcodeBits, Nat.not_lt.2 hlen, if_false, h]

end

/-! ### What the field checks accept -/

theorem decodeTwoSource_eq_ok {hdr : Word} {make : Reg → Reg → Reg → Instr} {i : Instr} :
    decodeTwoSource hdr make = .ok i ↔
      hdr.extractLsb' 0 6 = 0 ∧ hdrN hdr = 0 ∧ make (hdrD hdr) (hdrA hdr) (hdrB hdr) = i := by
  unfold decodeTwoSource
  split_ifs <;> simp_all

theorem decodeShift_eq_ok {hdr : Word} {make : Reg → Reg → BitVec 5 → Instr} {i : Instr} :
    decodeShift hdr make = .ok i ↔
      hdr.extractLsb' 0 6 = 0 ∧ hdrB hdr = 0 ∧ make (hdrD hdr) (hdrA hdr) (hdrN hdr) = i := by
  unfold decodeShift
  split_ifs <;> simp_all

theorem decodeEngine_eq_ok {hdr : Word} {i j : Instr} :
    decodeEngine hdr i = .ok j ↔ hdr.extractLsb' 0 26 = 0 ∧ i = j := by
  unfold decodeEngine
  split_ifs <;> simp_all

theorem decodeFields_mirror_eq_ok {hdr : Word} {args : List Word} {i : Instr} :
    decodeFields .mirror hdr args = .ok i ↔
      hdr.extractLsb' 0 21 = 0 ∧ .mirror (hdrD hdr) (argWord args 0) = i := by
  unfold decodeFields
  split_ifs <;> simp_all

theorem decodeFields_rotl_eq_ok {hdr : Word} {args : List Word} {i : Instr} :
    decodeFields .rotl hdr args = .ok i ↔
      hdr.extractLsb' 0 6 = 0 ∧ hdrB hdr = 0 ∧ hdrN hdr ≠ 0 ∧ .rotl (hdrD hdr) (hdrA hdr) (hdrN hdr) = i := by
  unfold decodeFields
  split_ifs <;> simp_all

theorem decodeFields_load_eq_ok {hdr : Word} {args : List Word} {i : Instr} :
    decodeFields .load hdr args = .ok i ↔
      hdr.extractLsb' 0 8 = 0 ∧ hdrRec hdr = 0 ∧ .load (hdrD hdr) (hdrBo hdr) (argWord args 0) = i := by
  unfold decodeFields
  split_ifs <;> simp_all

theorem decodeFields_save_eq_ok {hdr : Word} {args : List Word} {i : Instr} :
    decodeFields .save hdr args = .ok i ↔
      hdr.extractLsb' 0 8 = 0 ∧ 4 ≤ (hdrRec hdr).toNat ∧
        .save (hdrD hdr) (hdrBo hdr) (hdrRec hdr) (argWord args 0) = i := by
  unfold decodeFields
  split_ifs <;> simp_all

/-! ### The encoder's packets are accepted -/

theorem decodeTwoSource_formatR (op : Opcode) (d a b : Reg) (make : Reg → Reg → Reg → Instr) :
    decodeTwoSource (formatR op d a b 0) make = .ok (make d a b) := by
  obtain ⟨-, hd, ha, hb, hn, hz⟩ := fields_formatR op d a b 0
  exact decodeTwoSource_eq_ok.2 ⟨hz, hn, by rw [hd, ha, hb]⟩

theorem decodeShift_formatR (op : Opcode) (d a : Reg) (n : BitVec 5) (make : Reg → Reg → BitVec 5 → Instr) :
    decodeShift (formatR op d a 0 n) make = .ok (make d a n) := by
  obtain ⟨-, hd, ha, hb, hn, hz⟩ := fields_formatR op d a 0 n
  exact decodeShift_eq_ok.2 ⟨hz, hb, by rw [hd, ha, hn]⟩

theorem decodeEngine_formatE (op : Opcode) (i : Instr) : decodeEngine (formatE op) i = .ok i :=
  decodeEngine_eq_ok.2 ⟨(fields_formatE op).2, rfl⟩

/-- The field checks pass on the packet of a well-formed command, and answer the command. -/
theorem decodeFields_encode {i : Instr} (hwf : i.wf = true) (rest : List Word) :
    decodeFields i.opcode ((encode i).headD 0) ((encode i).tail ++ rest) = .ok i := by
  cases i with
  | mirror d imm =>
    obtain ⟨-, hd, hz⟩ := fields_formatI .mirror d
    exact decodeFields_mirror_eq_ok.2 ⟨hz, congrArg (Instr.mirror · imm) hd⟩
  | add d a b => exact decodeTwoSource_formatR .add d a b .add
  | xor d a b => exact decodeTwoSource_formatR .xor d a b .xor
  | or d a b => exact decodeTwoSource_formatR .or d a b .or
  | and d a b => exact decodeTwoSource_formatR .and d a b .and
  | andn d a b => exact decodeTwoSource_formatR .andn d a b .andn
  | shl d a n => exact decodeShift_formatR .shl d a n .shl
  | shr d a n => exact decodeShift_formatR .shr d a n .shr
  | rotl d a n =>
    obtain ⟨-, hd, ha, hb, hn, hz⟩ := fields_formatR .rotl d a 0 n
    have hn0 : n ≠ 0 := by
      rintro rfl
      simp [Instr.wf] at hwf
    exact decodeFields_rotl_eq_ok.2 ⟨hz, hb, fun h => hn0 (hn.symm.trans h), by
      simp only [encode, List.headD_cons, hd, ha, hn]⟩
  | load v bo addr =>
    obtain ⟨-, hv, hbo, hrec, hz⟩ := fields_formatM .load v bo 0
    exact decodeFields_load_eq_ok.2 ⟨hz, hrec, by simp only [encode, List.headD_cons, hv, hbo]; rfl⟩
  | save v bo recSize addr =>
    obtain ⟨-, hv, hbo, hrec, hz⟩ := fields_formatM .save v bo recSize
    refine decodeFields_save_eq_ok.2 ⟨hz, ?_, by simp only [encode, List.headD_cons, hv, hbo, hrec]; rfl⟩
    simpa [encode, hrec, Instr.wf] using hwf
  | shaInit => exact decodeEngine_formatE .shaInit _
  | shaBlock addr => exact decodeEngine_formatE .shaBlock _
  | shaSave out => exact decodeEngine_formatE .shaSave _
  | shaTrunk out inp count => exact decodeEngine_formatE .shaTrunk _
  | rmdInit => exact decodeEngine_formatE .rmdInit _
  | rmdBlock addr => exact decodeEngine_formatE .rmdBlock _
  | rmdSave out => exact decodeEngine_formatE .rmdSave _
  | rmdTrunk out inp count => exact decodeEngine_formatE .rmdTrunk _

/-- A command's packet has the length and the opcode of its row (R93): the laws per command, for any command. -/
theorem packetForm : ∀ i : Instr, Laws.PacketForm.Statement i
  | .mirror d imm => Laws.PacketForm.mirror d imm
  | .add d a b => Laws.PacketForm.add d a b
  | .xor d a b => Laws.PacketForm.xor d a b
  | .or d a b => Laws.PacketForm.or d a b
  | .and d a b => Laws.PacketForm.and d a b
  | .andn d a b => Laws.PacketForm.andn d a b
  | .shl d a n => Laws.PacketForm.shl d a n
  | .shr d a n => Laws.PacketForm.shr d a n
  | .rotl d a n => Laws.PacketForm.rotl d a n
  | .load v bo addr => Laws.PacketForm.load v bo addr
  | .save v bo recSize addr => Laws.PacketForm.save v bo recSize addr
  | .shaInit => Laws.PacketForm.shaInit
  | .shaBlock addr => Laws.PacketForm.shaBlock addr
  | .shaSave out => Laws.PacketForm.shaSave out
  | .shaTrunk out inp count => Laws.PacketForm.shaTrunk out inp count
  | .rmdInit => Laws.PacketForm.rmdInit
  | .rmdBlock addr => Laws.PacketForm.rmdBlock addr
  | .rmdSave out => Laws.PacketForm.rmdSave out
  | .rmdTrunk out inp count => Laws.PacketForm.rmdTrunk out inp count

/-- Settles O1: the packet has its row's opcode and length, its fields pass as the command, and what is dropped with
them is the packet's own words. -/
theorem decodeInvertsEncode : Obligations.DecodeInvertsEncode := by
  intro i rest hwf
  have hfields := decodeFields_encode hwf rest
  obtain ⟨hlen, hop⟩ := packetForm i
  cases henc : encode i with
  | nil =>
    rw [henc] at hlen
    exact absurd hlen (Machine.packetLength_pos i.opcode).ne
  | cons hdr tl =>
    rw [henc] at hfields hop hlen
    have hdrop : packetLength i.opcode - 1 = tl.length := by rw [← hlen, List.length_cons, Nat.add_sub_cancel]
    have hdec := decode_of_fields_ok hop (by simp [← hlen]) hfields
    rwa [List.tail_cons, hdrop, List.drop_left] at hdec

/-! ### No other packet is accepted -/

section
variable {op : Opcode} {hdr : Word} (hop : hdrOp hdr = opcodeBits op)
include hop

theorem encode_of_decodeTwoSource {make : Reg → Reg → Reg → Instr} {i : Instr}
    (hmake : ∀ d a b, (make d a b).wf = true ∧ encode (make d a b) = [formatR op d a b 0])
    (h : decodeTwoSource hdr make = .ok i) : i.wf = true ∧ encode i = [hdr] := by
  obtain ⟨hz, hn, rfl⟩ := decodeTwoSource_eq_ok.1 h
  obtain ⟨hwf, henc⟩ := hmake (hdrD hdr) (hdrA hdr) (hdrB hdr)
  exact ⟨hwf, by rw [henc, ← hn, formatR_fields hop hz]⟩

theorem encode_of_decodeShift {make : Reg → Reg → BitVec 5 → Instr} {i : Instr}
    (hmake : ∀ d a n, (make d a n).wf = true ∧ encode (make d a n) = [formatR op d a 0 n])
    (h : decodeShift hdr make = .ok i) : i.wf = true ∧ encode i = [hdr] := by
  obtain ⟨hz, hb, rfl⟩ := decodeShift_eq_ok.1 h
  obtain ⟨hwf, henc⟩ := hmake (hdrD hdr) (hdrA hdr) (hdrN hdr)
  exact ⟨hwf, by rw [henc, ← hb, formatR_fields hop hz]⟩

theorem encode_of_decodeEngine {i j : Instr} {ws : List Word} (hwf : j.wf = true) (henc : encode j = formatE op :: ws)
    (h : decodeEngine hdr j = .ok i) : i.wf = true ∧ encode i = hdr :: ws := by
  obtain ⟨hz, rfl⟩ := decodeEngine_eq_ok.1 h
  exact ⟨hwf, by rw [henc, formatE_fields hop hz]⟩

end

theorem take_one_eq_argWord {args : List Word} (h : 2 ≤ args.length + 1) : args.take 1 = [argWord args 0] := by
  match args, h with
  | _ :: _, _ => rfl

theorem take_three_eq_argWords {args : List Word} (h : 4 ≤ args.length + 1) :
    args.take 3 = [argWord args 0, argWord args 1, argWord args 2] := by
  match args, h with
  | _ :: _ :: _ :: _, _ => rfl

/-- What the field checks of a whole packet accept is well-formed, and is encoded in the packet's own words. -/
theorem encode_of_decodeFields {op : Opcode} {hdr : Word} {args : List Word} {i : Instr}
    (hop : hdrOp hdr = opcodeBits op) (hlen : packetLength op ≤ args.length + 1)
    (h : decodeFields op hdr args = .ok i) :
    i.wf = true ∧ encode i = hdr :: args.take (packetLength op - 1) := by
  cases op with
  | mirror =>
    obtain ⟨hz, rfl⟩ := decodeFields_mirror_eq_ok.1 h
    exact ⟨rfl, congrArg₂ List.cons (formatI_fields hop hz) (take_one_eq_argWord hlen).symm⟩
  | add => exact encode_of_decodeTwoSource hop (fun _ _ _ => ⟨rfl, rfl⟩) h
  | xor => exact encode_of_decodeTwoSource hop (fun _ _ _ => ⟨rfl, rfl⟩) h
  | or => exact encode_of_decodeTwoSource hop (fun _ _ _ => ⟨rfl, rfl⟩) h
  | and => exact encode_of_decodeTwoSource hop (fun _ _ _ => ⟨rfl, rfl⟩) h
  | andn => exact encode_of_decodeTwoSource hop (fun _ _ _ => ⟨rfl, rfl⟩) h
  | shl => exact encode_of_decodeShift hop (fun _ _ _ => ⟨rfl, rfl⟩) h
  | shr => exact encode_of_decodeShift hop (fun _ _ _ => ⟨rfl, rfl⟩) h
  | rotl =>
    obtain ⟨hz, hb, hn, rfl⟩ := decodeFields_rotl_eq_ok.1 h
    refine ⟨?_, congrArg (· :: []) (hb ▸ formatR_fields hop hz)⟩
    simpa [Instr.wf, Nat.one_le_iff_ne_zero, BitVec.toNat_eq] using hn
  | load =>
    obtain ⟨hz, hrec, rfl⟩ := decodeFields_load_eq_ok.1 h
    exact ⟨rfl, congrArg₂ List.cons (hrec ▸ formatM_fields hop hz) (take_one_eq_argWord hlen).symm⟩
  | save =>
    obtain ⟨hz, hrec, rfl⟩ := decodeFields_save_eq_ok.1 h
    exact ⟨decide_eq_true hrec, congrArg₂ List.cons (formatM_fields hop hz) (take_one_eq_argWord hlen).symm⟩
  | shaInit => exact encode_of_decodeEngine hop rfl rfl h
  | shaBlock => exact take_one_eq_argWord hlen ▸ encode_of_decodeEngine hop rfl rfl h
  | shaSave => exact take_one_eq_argWord hlen ▸ encode_of_decodeEngine hop rfl rfl h
  | shaTrunk => exact take_three_eq_argWords hlen ▸ encode_of_decodeEngine hop rfl rfl h
  | rmdInit => exact encode_of_decodeEngine hop rfl rfl h
  | rmdBlock => exact take_one_eq_argWord hlen ▸ encode_of_decodeEngine hop rfl rfl h
  | rmdSave => exact take_one_eq_argWord hlen ▸ encode_of_decodeEngine hop rfl rfl h
  | rmdTrunk => exact take_three_eq_argWords hlen ▸ encode_of_decodeEngine hop rfl rfl h

/-- Settles O2: the accepted packet is a header that its fields make up and the argument words, and the rest is what was
not taken. -/
theorem encodeInvertsDecode : Obligations.EncodeInvertsDecode := by
  intro ws i rest hdec
  obtain ⟨hdr, args, rfl, hop, hlen, hfields, rfl⟩ := Machine.decode_command hdec
  obtain ⟨hwf, henc⟩ := encode_of_decodeFields (opcodeOf?_eq_some.1 hop) hlen hfields
  refine ⟨hwf, ?_⟩
  rw [henc, ← Nat.succ_pred_eq_of_pos (Machine.packetLength_pos i.opcode)]
  exact congrArg (hdr :: ·) (List.take_append_drop _ args).symm

end Sys2Proof
end

section
/-! SUPPORT. The opcode table's masks against the decoder's field checks (opcode_table.json; 30_encoding.md R98, R99),
and the steps of packets that do not decode. -/

namespace Sys2Proof.Machine

/-- The reserved fields of a row, each by its lowest bit and its width (30_encoding.md R91, R99 (b)). -/
def reservedFields : Opcode → List (Nat × Nat)
  | .mirror => [(0, 21)]
  | .add => [(0, 6), (6, 5)] | .xor => [(0, 6), (6, 5)] | .or => [(0, 6), (6, 5)] | .and => [(0, 6), (6, 5)]
  | .andn => [(0, 6), (6, 5)]
  | .shl => [(0, 6), (11, 5)] | .shr => [(0, 6), (11, 5)] | .rotl => [(0, 6), (11, 5)]
  | .load => [(0, 8), (8, 12)] | .save => [(0, 8)]
  | .shaInit => [(0, 26)] | .shaBlock => [(0, 26)] | .shaSave => [(0, 26)] | .shaTrunk => [(0, 26)]
  | .rmdInit => [(0, 26)] | .rmdBlock => [(0, 26)] | .rmdSave => [(0, 26)] | .rmdTrunk => [(0, 26)]

/-- A row's mask is the opcode field and the row's reserved fields. -/
theorem tableMask_eq_layoutMask (op : Opcode) : tableMask op = layoutMask ((26, 6) :: reservedFields op) := by
  cases op <;> decide

/-- A row's match has the row's opcode in the opcode field, 0 in its reserved fields, and no bit outside its mask. -/
theorem tableMatch_fields (op : Opcode) :
    tableMatch op &&& tableMask op = tableMatch op ∧ hdrOp (tableMatch op) = opcodeBits op ∧
      ∀ f ∈ reservedFields op, f.1 + f.2 ≤ 32 ∧ (tableMatch op).extractLsb' f.1 f.2 = 0 := by
  cases op <;> decide

/-- A header has a row's fixed bits exactly when it has the row's opcode and 0 in the row's reserved fields. -/
theorem and_tableMask_eq_tableMatch_iff (op : Opcode) (hdr : Word) :
    hdr &&& tableMask op = tableMatch op ↔
      hdrOp hdr = opcodeBits op ∧ ∀ f ∈ reservedFields op, hdr.extractLsb' f.1 f.2 = 0 := by
  obtain ⟨hmatch, hop, hreserved⟩ := tableMatch_fields op
  have hbound : ∀ f ∈ (26, 6) :: reservedFields op, f.1 + f.2 ≤ 32 :=
    List.forall_mem_cons.2 ⟨by decide, fun f hf => (hreserved f hf).1⟩
  have hzero : (∀ f ∈ reservedFields op, hdr.extractLsb' f.1 f.2 = (tableMatch op).extractLsb' f.1 f.2) ↔
      ∀ f ∈ reservedFields op, hdr.extractLsb' f.1 f.2 = 0 :=
    forall₂_congr fun f hf => by rw [(hreserved f hf).2]
  calc
    hdr &&& tableMask op = tableMatch op
      ↔ hdr &&& tableMask op = tableMatch op &&& tableMask op := by rw [hmatch]
    _ ↔ hdrOp hdr = hdrOp (tableMatch op) ∧
          ∀ f ∈ reservedFields op, hdr.extractLsb' f.1 f.2 = (tableMatch op).extractLsb' f.1 f.2 := by
        rw [tableMask_eq_layoutMask, and_layoutMask_eq_iff hbound, List.forall_mem_cons, hdrOp, hdrOp]
    _ ↔ _ := by rw [hop, hzero]

theorem hdrB_eq_zero_iff (hdr : Word) : hdrB hdr = 0 ↔ hdr.extractLsb' 11 5 = 0 :=
  BitVec.toFin_inj (y := 0)

/-- The field checks pass exactly when the row's reserved fields are 0 and its constraint holds (R98). -/
theorem decodeFields_ok_iff (op : Opcode) (hdr : Word) (args : List Word) :
    (∃ i, decodeFields op hdr args = .ok i) ↔
      (∀ f ∈ reservedFields op, hdr.extractLsb' f.1 f.2 = 0) ∧ (op = .rotl → hdrN hdr ≠ 0) ∧
        (op = .save → 4 ≤ (hdrRec hdr).toNat) := by
  cases op with
  | mirror => simp [decodeFields_mirror_eq_ok, reservedFields]
  | rotl => simp [decodeFields_rotl_eq_ok, reservedFields, hdrB_eq_zero_iff, and_assoc]
  | load => simp [decodeFields_load_eq_ok, reservedFields, hdrRec]
  | save => simp [decodeFields_save_eq_ok, reservedFields]
  | add | xor | or | and | andn => simp [decodeFields, decodeTwoSource_eq_ok, reservedFields, hdrN]
  | shl | shr => simp [decodeFields, decodeShift_eq_ok, reservedFields, hdrB_eq_zero_iff]
  | _ => simp [decodeFields, decodeEngine_eq_ok, reservedFields]

/-- A header meets a row exactly when it has the row's opcode and passes the field checks. -/
theorem meetsRow_iff (op : Opcode) (hdr : Word) (args : List Word) :
    MeetsRow op hdr ↔ hdrOp hdr = opcodeBits op ∧ ∃ i, decodeFields op hdr args = .ok i := by
  rw [MeetsRow, and_tableMask_eq_tableMatch_iff, decodeFields_ok_iff, and_assoc]

/-- Settles O3: the decoder answers a command when the opcode is assigned, the packet is whole and the fields pass, and
the opcode and the fields are what the row's mask, match and constraint say. -/
theorem acceptedPacketsMatchOpcodeTable : Obligations.AcceptedPacketsMatchOpcodeTable := by
  intro hdr args op
  rw [meetsRow_iff op hdr args]
  constructor
  · rintro ⟨i, rest, hdec, rfl⟩
    obtain ⟨_, _, heq, hop, hlen, hfields, -⟩ := decode_command hdec
    cases heq
    exact ⟨⟨opcodeOf?_eq_some.1 hop, i, hfields⟩, hlen⟩
  · rintro ⟨⟨hop, i, hfields⟩, hlen⟩
    exact ⟨i, _, decode_of_fields_ok hop hlen hfields, decodeFields_opcode hfields⟩

/-! ### Steps that take a fault at decode -/

theorem step_of_rejected {s : State} {ws : List Word} {why : Reject} {c : Cause} (hrun : s.halted = false)
    (hcmds : s.cmds = ws) (hdec : decode ws = .rejected why) (hcause : rejectCause why = c) :
    step s = .next (s.takeFault c 0) := by
  simp only [step, fetch, hrun, hcmds, hdec, hcause, Bool.false_eq_true, if_false, State.raise_eq]

theorem decodeTwoSource_ne_truncated (hdr : Word) (make : Reg → Reg → Reg → Instr) :
    decodeTwoSource hdr make ≠ .error .truncated := by
  unfold decodeTwoSource
  split_ifs <;> simp

theorem decodeShift_ne_truncated (hdr : Word) (make : Reg → Reg → BitVec 5 → Instr) :
    decodeShift hdr make ≠ .error .truncated := by
  unfold decodeShift
  split_ifs <;> simp

theorem decodeEngine_ne_truncated (hdr : Word) (i : Instr) : decodeEngine hdr i ≠ .error .truncated := by
  unfold decodeEngine
  split_ifs <;> simp

/-- No field check answers TRUNCATED. -/
theorem decodeFields_ne_truncated (op : Opcode) (hdr : Word) (args : List Word) :
    decodeFields op hdr args ≠ .error .truncated := by
  cases op with
  | mirror | rotl | load | save =>
    unfold decodeFields
    split_ifs <;> simp
  | add | xor | or | and | andn => exact decodeTwoSource_ne_truncated hdr _
  | shl | shr => exact decodeShift_ne_truncated hdr _
  | _ => exact decodeEngine_ne_truncated hdr _

theorem rejectCause_of_decodeFields_error {op : Opcode} {hdr : Word} {args : List Word} {why : Reject}
    (h : decodeFields op hdr args = .error why) : rejectCause why = .illegal := by
  cases why with
  | truncated => exact absurd h (decodeFields_ne_truncated op hdr args)
  | _ => rfl

theorem opcodeOf?_eq_none {b : BitVec 6}
    (h : b.toNat = 0 ∨ (0x0C ≤ b.toNat ∧ b.toNat ≤ 0x0F) ∨ 0x18 ≤ b.toNat) : opcodeOf? b = none := by
  revert b
  decide

/-- Settles O5: a reserved opcode, and a header whose fields do not pass, are rejected as ILLEGAL; a header that meets
its row decodes. -/
theorem reservedEncodingsRaiseIllegal : Obligations.ReservedEncodingsRaiseIllegal := by
  intro s hdr args hrun hcmds
  refine ⟨fun hreserved => ?_, fun op hop hlen => ⟨fun hmiss => ?_, fun hmeets => ?_⟩⟩
  · exact step_of_rejected hrun hcmds (decode_reservedOpcode (opcodeOf?_eq_none hreserved) args) rfl
  · cases hfields : decodeFields op hdr args with
    | ok i => exact absurd ((meetsRow_iff op hdr args).2 ⟨hop, i, hfields⟩) hmiss
    | error why =>
      exact step_of_rejected hrun hcmds (decode_of_fields_error hop hlen hfields)
        (rejectCause_of_decodeFields_error hfields)
  · obtain ⟨-, i, hfields⟩ := (meetsRow_iff op hdr args).1 hmeets
    have hdec := decode_of_fields_ok hop hlen hfields
    rw [← hcmds] at hdec
    exact ⟨i, _, hdec, step_eq_exec hrun hdec⟩

/-- Settles O6: the length is checked before any field but the opcode (R98). -/
theorem missingArgumentWordsRaiseTruncated : Obligations.MissingArgumentWordsRaiseTruncated := by
  intro s hdr args op hrun hcmds hop hlen
  exact step_of_rejected hrun hcmds (decode_truncated hop hlen) rfl

/-- Settles O8: a running engine with no word left is idle, and an idle step answers its state. -/
theorem idleEngineKeepsState : Obligations.IdleEngineKeepsState := by
  intro s hrun hcmds
  simp [step, fetch, hrun, hcmds, decode]

/-- Settles O23: only ROTL and SAVE have an ill-formed operand, and each checks it first. -/
theorem illFormedOperandsRaiseIllegal : Obligations.IllFormedOperandsRaiseIllegal := by
  intro i s hwf
  cases i with
  | rotl d a n =>
    have hn : n = 0 := by simpa [Instr.wf, BitVec.toNat_eq] using hwf
    exact if_pos hn
  | save v bo recSize addr =>
    have hrec : recSize.toNat < 4 := by simpa [Instr.wf] using hwf
    exact if_pos hrec
  | _ => simp [Instr.wf] at hwf

end Sys2Proof.Machine
end

section
/-! SUPPORT. The shifts and the rotation of a word, bit by bit (00_scope.md R14), and the laws of the per-lane primitives
(40_backend_alu.md R143). -/

namespace Sys2Proof.Machine

theorem getLsbD_shl32 {k : Nat} (hk : k < 32) (x : Word) (n : Nat) :
    (shl32 x n).getLsbD k = (!decide (k < n) && x.getLsbD (k - n)) := by
  simp only [shl32, BitVec.getLsbD_shiftLeft, hk, decide_true, Bool.true_and]

theorem getLsbD_shr32 (x : Word) (n k : Nat) : (shr32 x n).getLsbD k = x.getLsbD (n + k) :=
  BitVec.getLsbD_ushiftRight x n k

/-- At each bit, the shift left by `n` or the shift right by `32 - n` is 0. -/
theorem getLsbD_shl32_and_shr32 {n k : Nat} (hk : k < 32) (x : Word) :
    ((shl32 x n).getLsbD k && (shr32 x (32 - n)).getLsbD k) = false := by
  rw [getLsbD_shl32 hk, getLsbD_shr32]
  by_cases hkn : k < n
  · simp [hkn]
  · rw [BitVec.getLsbD_of_ge x (32 - n + k) (by omega), Bool.and_false]

/-- A rotation moves bit `k` to bit `(k + n) mod 32`: the shift left carries the low bits, the shift right the others. -/
theorem getLsbD_rotl32_add_mod {n k : Nat} (hn : n < 32) (hk : k < 32) (x : Word) :
    (rotl32 x n).getLsbD ((k + n) % 32) = x.getLsbD k := by
  rw [rotl32, BitVec.getLsbD_or, getLsbD_shl32 (Nat.mod_lt _ (by decide)), getLsbD_shr32]
  by_cases hkn : k + n < 32
  · rw [Nat.mod_eq_of_lt hkn, BitVec.getLsbD_of_ge x (32 - n + (k + n)) (by omega)]
    simp
  · have hmod : (k + n) % 32 = k + n - 32 := by omega
    have hlow : k + n - 32 < n := by omega
    have hback : 32 - n + (k + n - 32) = k := by omega
    rw [hmod, hback]
    simp [hlow]

/-- Each bit returns to its place. -/
theorem rotl32_rotl32_sub (x : Word) {n : Nat} (hpos : 1 ≤ n) (hle : n ≤ 31) : rotl32 (rotl32 x n) (32 - n) = x := by
  refine BitVec.eq_of_getLsbD_eq fun k hk => ?_
  have hround : ((k + n) % 32 + (32 - n)) % 32 = k := by omega
  calc (rotl32 (rotl32 x n) (32 - n)).getLsbD k
      = (rotl32 (rotl32 x n) (32 - n)).getLsbD (((k + n) % 32 + (32 - n)) % 32) := by rw [hround]
    _ = (rotl32 x n).getLsbD ((k + n) % 32) := getLsbD_rotl32_add_mod (by omega) (Nat.mod_lt _ (by decide)) _
    _ = x.getLsbD k := getLsbD_rotl32_add_mod (by omega) hk x

theorem or_eq_xor_of_and_eq_false {p q : Bool} (h : (p && q) = false) : (p || q) = Bool.xor p q := by
  cases p with
  | false => simp
  | true =>
    have hq : q = false := h
    simp [hq]

theorem rotl32_eq_xor (x : Word) (n : Nat) : rotl32 x n = shl32 x n ^^^ shr32 x (32 - n) := by
  refine BitVec.eq_of_getLsbD_eq fun k hk => ?_
  rw [rotl32, BitVec.getLsbD_or, BitVec.getLsbD_xor, or_eq_xor_of_and_eq_false (getLsbD_shl32_and_shr32 hk x)]

theorem shr32_shl32 (x : Word) (n : Nat) : shr32 (shl32 x n) n = x &&& shr32 0xFFFFFFFF n := by
  have hones : (0xFFFFFFFF : Word) = BitVec.allOnes 32 := by decide
  refine BitVec.eq_of_getLsbD_eq fun k hk => ?_
  rw [BitVec.getLsbD_and, getLsbD_shr32, getLsbD_shr32, hones, BitVec.getLsbD_allOnes]
  by_cases hlow : n + k < 32
  · rw [getLsbD_shl32 hlow]
    simp [hlow]
  · rw [BitVec.getLsbD_of_ge _ _ (by omega)]
    simp [hlow]

theorem not_eq_xor_ones (x : Word) : ~~~x = x ^^^ 0xFFFFFFFF := BitVec.xor_allOnes.symm

/-- Settles O25: rotation and shifts by their bits, addition by `BitVec`'s own laws. -/
theorem rotateAndShiftLaws : Obligations.RotateAndShiftLaws :=
  ⟨fun x _ hpos hle => rotl32_rotl32_sub x hpos hle, fun x n _ _ => rotl32_eq_xor x n,
    fun x y z => ⟨BitVec.add_comm x y, BitVec.add_assoc x y z⟩, fun x y => by rw [not_eq_xor_ones],
    fun x n _ => shr32_shl32 x n⟩

end Sys2Proof.Machine
end

section
/-! SUPPORT. MIRROR, the two-source commands and ROTL: what each leaves in a lane (40_backend_alu.md R131, R133 to R138,
R141), beside `aluOne_completes`. -/

namespace Sys2Proof.Machine

/-- A two-source command whose sources are written completes, with `f` of the sources in each lane of `V[d]` (R131). -/
theorem aluTwo_completes {d a b : Reg} (f : Word → Word → Word) {s : State} (ha : s.written a = true)
    (hb : s.written b = true) :
    ∃ t, aluTwo d a b f s = .next t ∧ (t.readV d).length = s.lanesOf ∧
      (∀ i, i < s.lanesOf → lane (t.readV d) i = f (lane (s.readV a) i) (lane (s.readV b) i)) ∧
      t.written d = true ∧ Retired 1 s t ∧ RegisterFrame d s t :=
  ⟨_, aluTwo_written ha hb, writeV_lanes_retire rfl⟩

/-- A two-source command whose function acts on each bit alone acts so on each bit of each lane. -/
theorem aluTwo_bitwise {d a b : Reg} {f : Word → Word → Word} {g : Bool → Bool → Bool}
    (hf : ∀ x y k, k < 32 → (f x y).getLsbD k = g (x.getLsbD k) (y.getLsbD k)) {s : State}
    (ha : s.written a = true) (hb : s.written b = true) :
    ∃ t, aluTwo d a b f s = .next t ∧ (t.readV d).length = s.lanesOf ∧
      (∀ i, i < s.lanesOf → ∀ k, k < 32 →
        (lane (t.readV d) i).getLsbD k = g ((lane (s.readV a) i).getLsbD k) ((lane (s.readV b) i).getLsbD k)) ∧
      t.written d = true ∧ Retired 1 s t ∧ RegisterFrame d s t := by
  obtain ⟨t, hexec, hlen, hlane, hrest⟩ := aluTwo_completes (d := d) f ha hb
  exact ⟨t, hexec, hlen, fun i hi k hk => by rw [hlane i hi, hf _ _ k hk], hrest⟩

theorem getLsbD_not_and {k : Nat} (hk : k < 32) (x y : Word) :
    (~~~x &&& y).getLsbD k = (!x.getLsbD k && y.getLsbD k) := by
  simp [hk]

theorem exec_rotl {n : BitVec 5} (hn : n ≠ 0) (d a : Reg) (s : State) :
    exec (.rotl d a n) s = aluOne d a (rotl32 · n.toNat) s := if_neg hn

/-- Settles O17: MIRROR checks nothing and writes the constant lane by lane. -/
theorem mirrorBroadcastsConstant : Obligations.MirrorBroadcastsConstant :=
  fun _ _ _ => ⟨_, rfl, writeV_lanes_retire rfl⟩

/-- Settles O18: ADD is a two-source command, and a sum of words is the sum of their values modulo 2^32. -/
theorem addSumsLanesModulo : Obligations.AddSumsLanesModulo := by
  intro s d a b ha hb
  obtain ⟨t, hexec, hlen, hlane, hrest⟩ := aluTwo_completes (d := d) (· + ·) ha hb
  exact ⟨t, hexec, hlen, fun i hi => by rw [hlane i hi, BitVec.toNat_add], hrest⟩

/-- Settles O19: each is a two-source command whose function acts on each bit alone. -/
theorem bitwiseCommandsActPerBit : Obligations.BitwiseCommandsActPerBit := fun _ _ _ _ ha hb =>
  ⟨aluTwo_bitwise (fun _ _ _ _ => BitVec.getLsbD_xor) ha hb,
    aluTwo_bitwise (fun _ _ _ _ => BitVec.getLsbD_or) ha hb,
    aluTwo_bitwise (fun _ _ _ _ => BitVec.getLsbD_and) ha hb,
    aluTwo_bitwise (g := fun p q => !p && q) (fun x y _ hk => getLsbD_not_and hk x y) ha hb⟩

/-- Settles O21: ROTL with an amount in 1..31 is a one-source command, whose function moves each bit of a lane. -/
theorem rotateMovesEachBit : Obligations.RotateMovesEachBit := by
  intro s d a n ha hn
  obtain ⟨t, hexec, hlen, hlane, hrest⟩ := aluOne_completes (d := d) (rotl32 · n.toNat) ha
  refine ⟨t, (exec_rotl hn d a s).trans hexec, hlen, fun i hi k hk => ?_, hrest⟩
  rw [hlane i hi, getLsbD_rotl32_add_mod n.isLt hk]

end Sys2Proof.Machine
end

section
/-! SUPPORT. Two states of any widths that agree in one lane: the primitives' updates keep the agreement, and so every
primitive does (40_backend_alu.md R130, R132). -/

namespace Sys2Proof.Machine

/-- Lane `k` is a lane of both states, and they agree in it and in the written flags. -/
structure AgreeInLane (k : Nat) (s u : State) : Prop where
  lt_left : k < s.lanesOf
  lt_right : k < u.lanesOf
  written : ∀ r : Reg, u.written r = s.written r
  lane : ∀ r : Reg, lane (u.readV r) k = lane (s.readV r) k

/-- Both outcomes are next states, and these agree in lane `k`. -/
def AnswersAgreeInLane (k : Nat) (r r' : Result) : Prop :=
  ∃ s' u', r = .next s' ∧ r' = .next u' ∧ AgreeInLane k s' u'

/-- A check that answers alike for both states leaves only its two branches to compare. -/
theorem AnswersAgreeInLane.ite {k : Nat} {p : Prop} [Decidable p] {r₁ r₂ r₁' r₂' : Result}
    (hpos : AnswersAgreeInLane k r₁ r₁') (hneg : AnswersAgreeInLane k r₂ r₂') :
    AnswersAgreeInLane k (if p then r₁ else r₂) (if p then r₁' else r₂') := by
  split
  case isTrue => exact hpos
  case isFalse => exact hneg

section
variable {k : Nat} {s u : State} (h : AgreeInLane k s u)
include h

theorem AgreeInLane.raise (c : Cause) (addr : Word) : AnswersAgreeInLane k (s.raise c addr) (u.raise c addr) :=
  ⟨_, _, rfl, rfl, h.lt_left, h.lt_right, h.written, h.lane⟩

/-- A write of a register lane by lane keeps the agreement when what is written agrees in lane `k`. -/
theorem AgreeInLane.writeV_lanes {f g : Nat → Word} (hfg : g k = f k) (d : Reg) (len : Nat) :
    AnswersAgreeInLane k (.next ((s.writeV d (lanes s.lanesOf f)).retire len))
      (.next ((u.writeV d (lanes u.lanesOf g)).retire len)) := by
  refine ⟨_, _, rfl, rfl, h.lt_left, h.lt_right, fun r => ?_, fun r => ?_⟩
  · simp [State.writeV_written, h.written]
  · by_cases hr : r = d
    · subst hr
      simp [lane_lanes _ _ _ h.lt_left, lane_lanes _ _ _ h.lt_right, hfg]
    · simp [State.writeV_readV, hr, h.lane]

theorem AgreeInLane.aluTwo (d a b : Reg) (f : Word → Word → Word) :
    AnswersAgreeInLane k (aluTwo d a b f s) (aluTwo d a b f u) := by
  rw [Machine.aluTwo, Machine.aluTwo, h.written, h.written]
  exact .ite (h.raise _ _) (.ite (h.raise _ _) (h.writeV_lanes (by rw [h.lane, h.lane]) d 1))

theorem AgreeInLane.aluOne (d a : Reg) (f : Word → Word) :
    AnswersAgreeInLane k (aluOne d a f s) (aluOne d a f u) := by
  rw [Machine.aluOne, Machine.aluOne, h.written]
  exact .ite (h.raise _ _) (h.writeV_lanes (by rw [h.lane]) d 1)

theorem AgreeInLane.exec {i : Instr} (hi : familyOf i = .primitive) : AnswersAgreeInLane k (exec i s) (exec i u) := by
  cases i with
  | mirror d imm => exact h.writeV_lanes rfl d 2
  | add d a b => exact h.aluTwo d a b _
  | xor d a b => exact h.aluTwo d a b _
  | or d a b => exact h.aluTwo d a b _
  | and d a b => exact h.aluTwo d a b _
  | andn d a b => exact h.aluTwo d a b (fun x y => ~~~x &&& y)
  | shl d a n => exact h.aluOne d a (shl32 · n.toNat)
  | shr d a n => exact h.aluOne d a (shr32 · n.toNat)
  | rotl d a n => exact .ite (h.raise _ _) (h.aluOne d a _)
  | _ => cases hi

end

/-- Settles O24: every primitive checks written flags alone, and writes lane `k` from lane `k` of its sources. -/
theorem laneResultsIndependentOfWidth : Obligations.LaneResultsIndependentOfWidth := by
  intro i s u k hi hs hu hwritten hlane
  obtain ⟨s', u', hexec, hexec', h⟩ := AgreeInLane.exec ⟨hs, hu, hwritten, hlane⟩ hi
  exact ⟨s', u', hexec, hexec', h.written, h.lane⟩

end Sys2Proof.Machine
end

section
/-! SUPPORT. LOAD and SAVE (41_backend_transpose.md R170, R171, R173): what each does when its checks pass, and which
bytes the writes of a SAVE leave. -/

namespace Sys2Proof.Machine

theorem exec_load_admitted {addr : Word} {s : State}
    (hadm : ∀ i, i < s.lanesOf → s.admits (addr.toNat + 64 * i) 4 = true) (v : Reg) (bo : ByteOrder) :
    exec (.load v bo addr) s = .next ((s.writeV v
      (lanes s.lanesOf fun i => s.mem.readWord bo (addr.toNat + 64 * i))).retire 2) :=
  if_pos ((s.admitLanes_iff _ _).2 hadm)

theorem exec_save_ready {v : Reg} {recSize : BitVec 12} {addr : Word} {s : State} (hv : s.written v = true)
    (hrec : 4 ≤ recSize.toNat) (hadm : ∀ i, i < s.lanesOf → s.admits (addr.toNat + recSize.toNat * i) 4 = true)
    (bo : ByteOrder) :
    exec (.save v bo recSize addr) s = .next ((s.putMem (s.mem.writeChunks
      (saveChunks bo s.lanesOf addr.toNat recSize.toNat (s.readV v)))).retire 2) := by
  have hlanes := (s.admitLanes_iff addr.toNat recSize.toNat).2 hadm
  simp [exec, execSave, hv, hlanes, Nat.not_lt.2 hrec]

/-- Words at a stride of at least their 4 bytes do not overlap: an address in words `i` and `j` is in one word. -/
theorem strided_words_disjoint {base stride i j x : Nat} (hstride : 4 ≤ stride)
    (hi : base + stride * i ≤ x ∧ x < base + stride * i + 4)
    (hj : base + stride * j ≤ x ∧ x < base + stride * j + 4) : j = i := by
  have apart {p q : Nat} (hpq : p < q) : stride * p + 4 ≤ stride * q :=
    calc stride * p + 4 ≤ stride * (p + 1) := by rw [Nat.mul_succ]; omega
      _ ≤ stride * q := Nat.mul_le_mul_left _ hpq
  rcases Nat.lt_trichotomy j i with hlt | heq | hgt
  · have := apart hlt
    omega
  · exact heq
  · have := apart hgt
    omega

/-- Lane `i`'s bytes of a SAVE are read back: no other lane's word holds them. -/
theorem Memory.read_saveChunks_inside (m : Memory) (bo : ByteOrder) {w stride i k : Nat} (addr : Nat) (x : VectorWord)
    (hstride : 4 ≤ stride) (hi : i < w) (hk : k < 4) :
    (m.writeChunks (saveChunks bo w addr stride x)).read (addr + stride * i + k) =
      (encWord bo (lane x i)).getD k 0 := by
  have hmem : (addr + stride * i, encWord bo (lane x i)) ∈ saveChunks bo w addr stride x :=
    mem_saveChunks.2 ⟨i, hi, rfl⟩
  rw [Memory.read_writeChunks_inside m _ _ _ hmem]
  · rw [Nat.add_sub_cancel_left]
  · simp [hk]
  · intro d hd hx
    obtain ⟨j, -, rfl⟩ := mem_saveChunks.1 hd
    rw [length_encWord] at hx
    rw [strided_words_disjoint hstride ⟨Nat.le_add_right _ k, Nat.add_lt_add_left hk _⟩ hx]

theorem Memory.read_saveChunks_outside (m : Memory) (bo : ByteOrder) {w addr stride a : Nat} (x : VectorWord)
    (ha : ∀ i, i < w → ¬(addr + stride * i ≤ a ∧ a < addr + stride * i + 4)) :
    (m.writeChunks (saveChunks bo w addr stride x)).read a = m.read a := by
  refine Memory.read_writeChunks_outside m a _ fun c hc => ?_
  obtain ⟨i, hi, rfl⟩ := mem_saveChunks.1 hc
  simpa using ha i hi

/-- Four bytes that hold a word's encoding decode to that word. -/
theorem decWord_of_getD_encWord {bo : ByteOrder} {x : Word} {b : Nat → Byte}
    (hb : ∀ k, k < 4 → b k = (encWord bo x).getD k 0) : decWord bo (b 0) (b 1) (b 2) (b 3) = x := by
  obtain ⟨b0, b1, b2, b3, henc, hdec⟩ := decWord_encWord bo x
  rw [hb 0 (by omega), hb 1 (by omega), hb 2 (by omega), hb 3 (by omega), henc]
  exact hdec

/-- Settles O26: the admission check passes, and LOAD writes its register lane by lane. -/
theorem loadGathersLanes : Obligations.LoadGathersLanes :=
  fun _ v bo _ hadm => ⟨_, exec_load_admitted hadm v bo, writeV_lanes_retire rfl⟩

/-- Settles O27: the checks pass, and SAVE changes memory alone, by words that do not overlap. -/
theorem saveScattersLanes : Obligations.SaveScattersLanes := by
  intro s v bo recSize addr hv hrec hadm
  refine ⟨_, exec_save_ready hv hrec hadm bo, ?_, ?_, ⟨rfl, rfl⟩, ⟨rfl, rfl, rfl, rfl, rfl⟩,
    sameVectors_of_eq rfl rfl, ⟨rfl, rfl⟩, rfl, rfl⟩
  · exact fun i hi k hk => s.mem.read_saveChunks_inside bo addr.toNat (s.readV v) hrec hi hk
  · exact fun x hx => s.mem.read_saveChunks_outside bo (s.readV v) hx

/-- Settles O28: at record size 64, and on lane 0 at any, SAVE stores a lane where LOAD gathers it (R173), and a word's
encoding decodes to the word. -/
theorem saveThenLoadReturnsLanes : Obligations.SaveThenLoadReturnsLanes := by
  intro s v u bo recSize addr hv hrec hplace hadm
  have hstride {i : Nat} (hi : i < s.lanesOf) : recSize.toNat * i = 64 * i := by
    rcases hplace with h64 | hone
    · rw [h64]
    · obtain rfl : i = 0 := by omega
      simp
  obtain ⟨m, hsave, hstored, -, -, ⟨hinst, -⟩, -⟩ := saveScattersLanes s v bo recSize addr hv hrec hadm
  have hlanes : m.lanesOf = s.lanesOf := by rw [State.lanesOf, hinst, State.lanesOf]
  have hadm' : ∀ i, i < m.lanesOf → m.admits (addr.toNat + 64 * i) 4 = true := by
    intro i hi
    rw [hlanes] at hi
    rw [State.admits, hinst, ← hstride hi]
    exact hadm i hi
  obtain ⟨t, hload, -, hgathered, -⟩ := loadGathersLanes m u bo addr hadm'
  refine ⟨m, t, hsave, hload, fun i hi => ?_⟩
  rw [hgathered i (by rwa [hlanes]), ← hstride hi]
  exact decWord_of_getD_encWord (b := fun k => m.mem.read (addr.toNat + recSize.toNat * i + k)) (hstored i hi)

end Sys2Proof.Machine
end

section
/-! SUPPORT. The digest buffer of an engine save (20_memory.md R70; 42_sha256.md R211; 43_ripemd160.md R262): where the words
of the records stand, and what the writes leave. -/

namespace Sys2Proof.Machine

/-- An address in a word of a digest buffer lies in one record, the lane's, and in one word of it. -/
theorem digest_words_disjoint {out size n i i' j j' x : Nat} (hsize : 4 * n ≤ size) (hj : j < n) (hj' : j' < n)
    (hx : out + 4 * j + size * i ≤ x ∧ x < out + 4 * j + size * i + 4)
    (hx' : out + 4 * j' + size * i' ≤ x ∧ x < out + 4 * j' + size * i' + 4) : j' = j ∧ i' = i := by
  have hrecord {p l : Nat} (hl : l < n) (h : out + 4 * l + size * p ≤ x ∧ x < out + 4 * l + size * p + 4) :
      (x - out) / size = p := by
    refine Nat.div_eq_of_lt_le ?_ ?_
    · rw [Nat.mul_comm]
      omega
    · rw [Nat.succ_mul, Nat.mul_comm]
      omega
  obtain rfl : i' = i := (hrecord hj' hx').symm.trans (hrecord hj hx)
  omega

/-- Word `j` of lane `i`'s record is read back byte by byte: no other word of the buffer holds its bytes. -/
theorem Memory.read_digestChunks_inside (m : Memory) (bo : ByteOrder) (out : Nat) {w size i j k : Nat}
    {xs : List VectorWord} (hsize : 4 * xs.length ≤ size) (hi : i < w) (hj : j < xs.length) (hk : k < 4) :
    (m.writeChunks (digestChunks bo w out size xs)).read (out + size * i + 4 * j + k) =
      (encWord bo (lane (xs.getD j []) i)).getD k 0 := by
  have hmem : (out + 4 * j + size * i, encWord bo (lane xs[j] i)) ∈ digestChunks bo w out size xs :=
    mem_digestChunks.2 ⟨j, hj, i, hi, rfl⟩
  have haddr : out + size * i + 4 * j + k = out + 4 * j + size * i + k := by omega
  rw [haddr, List.getD_eq_getElem xs [] hj, Memory.read_writeChunks_inside m _ _ _ hmem]
  · rw [Nat.add_sub_cancel_left]
  · simp [hk]
  · intro d hd hx
    obtain ⟨j', hj', i', -, rfl⟩ := mem_digestChunks.1 hd
    rw [length_encWord] at hx
    obtain ⟨rfl, rfl⟩ := digest_words_disjoint hsize hj hj' ⟨Nat.le_add_right _ k, Nat.add_lt_add_left hk _⟩ hx
    rfl

theorem Memory.read_digestChunks_outside (m : Memory) (bo : ByteOrder) {w out size x : Nat} {xs : List VectorWord}
    (hsize : 4 * xs.length ≤ size) (hx : ¬(out ≤ x ∧ x < out + size * w)) :
    (m.writeChunks (digestChunks bo w out size xs)).read x = m.read x := by
  refine Memory.read_writeChunks_outside m x _ fun c hc => ?_
  obtain ⟨hlo, hhi⟩ := digestChunks_inside hsize hc
  omega

end Sys2Proof.Machine
end

section
/-! SUPPORT. The HashStates by lane (10_state.md R32, R34; 42_sha256.md R208, R209; 43_ripemd160.md R260), and the frame of
an engine command. -/

namespace Sys2Proof.Machine

theorem lane_shaIvLanes {w i : Nat} (hi : i < w) : (shaIvLanes w).lane i = iv256 := by
  simp only [shaIvLanes, Hash8.lane, Hash8.map, lane_lanes _ _ _ hi]

theorem lane_rmdIvLanes {w i : Nat} (hi : i < w) : (rmdIvLanes w).lane i = iv160 := by
  simp only [rmdIvLanes, Hash5.lane, Hash5.map, lane_lanes _ _ _ hi]

/-- A write of the SHA-256 engine, one of memory and the retirement of the packet leave everything else. -/
theorem shaFrame_putSha_retire (s : State) (m : Memory) (h : Hash8 VectorWord) (st : EngineStatus) (len : Nat) :
    ShaFrame s (((s.putMem m).putSha h st).retire len) :=
  ⟨⟨rfl, rfl, rfl, rfl, rfl⟩, sameVectors_of_eq rfl rfl, rfl, rfl⟩

/-- A write of the RIPEMD-160 engine, one of memory and the retirement of the packet leave everything else. -/
theorem rmdFrame_putRmd_retire (s : State) (m : Memory) (h : Hash5 VectorWord) (st : EngineStatus) (len : Nat) :
    RmdFrame s (((s.putMem m).putRmd h st).retire len) :=
  ⟨⟨rfl, rfl, rfl, rfl, rfl⟩, sameVectors_of_eq rfl rfl, rfl, rfl⟩

/-- Settles O32: neither INIT checks anything, and each puts its engine alone. -/
theorem initLoadsIv : Obligations.InitLoadsIv := fun s =>
  ⟨⟨_, rfl, fun _ hi => lane_shaIvLanes hi, rfl, ⟨rfl, rfl⟩, shaFrame_putSha_retire s s.mem .., fun _ => rfl⟩,
    ⟨_, rfl, fun _ hi => lane_rmdIvLanes hi, rfl, ⟨rfl, rfl⟩, rmdFrame_putRmd_retire s s.mem .., fun _ => rfl⟩⟩

end Sys2Proof.Machine
end

section
/-! SUPPORT. SHA_BLOCK, SHA_SAVE and SHA_TRUNK (42_sha256.md R208 to R215): each lane by itself, the digests written, and
TRUNK against the commands it stands for. -/

namespace Sys2Proof.Machine

/-! ### A lane of the HashState -/

theorem lane_shaGroup (m : Memory) (base : Nat) (x : Hash8 VectorWord) {w i : Nat} (hi : i < w) :
    (shaGroup w m base x).lane i = shaCompress (x.lane i) (m.readBytes (base + 64 * i) 64) :=
  Hash8.lane_ofLanes _ _ _ hi

/-- A trunk hashes each lane by itself: round `r` reads lane `i`'s block where R69 puts it. -/
theorem lane_shaTrunkState (m : Memory) (inp count : Nat) {w i : Nat} (hi : i < w) :
    (shaTrunkState w m inp count).lane i = laneSha m inp w i count := by
  induction count with
  | zero => exact lane_shaIvLanes hi
  | succ n ih =>
    have hblock : inp + 64 * w * n + 64 * i = trunkBlock inp w n i := by
      rw [trunkBlock, Nat.mul_add, Nat.mul_assoc, Nat.add_assoc]
    calc (shaTrunkState w m inp (n + 1)).lane i
        = shaCompress ((shaTrunkState w m inp n).lane i) (m.readBytes (inp + 64 * w * n + 64 * i) 64) :=
          lane_shaGroup m _ _ hi
      _ = laneSha m inp w i (n + 1) := by rw [ih, hblock]; rfl

/-- Word `j` of a HashState in lane `i` is word `j` of lane `i`'s chaining value. -/
theorem lane_getD_toList (x : Hash8 VectorWord) (i j : Nat) :
    lane (x.toList.getD j []) i = (x.lane i).toList.getD j 0 :=
  (List.getD_map (l := x.toList) (d := []) (n := j) fun y => lane y i).symm

/-! ### What a finish writes -/

theorem read_shaFinish_inside (s : State) (out : Nat) (x : Hash8 VectorWord) {i j k : Nat} (hi : i < s.lanesOf)
    (hj : j < 8) (hk : k < 4) :
    (shaFinish out x s).mem.read (out + 32 * i + 4 * j + k) = (encBe32 (lane (x.toList.getD j []) i)).getD k 0 :=
  s.mem.read_digestChunks_inside .be out (xs := x.toList) le_rfl hi hj hk

theorem read_shaFinish_outside (s : State) {out a : Nat} (x : Hash8 VectorWord)
    (ha : ¬(out ≤ a ∧ a < out + 32 * s.lanesOf)) : (shaFinish out x s).mem.read a = s.mem.read a :=
  s.mem.read_digestChunks_outside .be (xs := x.toList) le_rfl ha

theorem shaFrame_shaFinish_retire (s : State) (out : Nat) (x : Hash8 VectorWord) (len : Nat) :
    ShaFrame s ((shaFinish out x s).retire len) :=
  shaFrame_putSha_retire s ..

/-! ### The commands -/

theorem exec_shaBlock_active {addr : Word} {s : State} (hst : s.sts = .active)
    (hadm : s.admits addr.toNat (64 * s.lanesOf) = true) : exec (.shaBlock addr) s =
      .next ((s.putSha (shaGroup s.lanesOf s.mem addr.toNat s.hs) .active).retire 2) := by
  rw [exec_shaBlock, engineBlock_of_active hst _ hadm]

theorem exec_shaSave_ready {out : Word} {s : State} (hst : s.sts ≠ .uninit)
    (hadm : s.admits out.toNat (32 * s.lanesOf) = true) :
    exec (.shaSave out) s = .next ((shaFinish out.toNat s.hs s).retire 2) := by
  rw [exec_shaSave, engineSave_ready hst hadm]

theorem exec_shaTrunk_admitted {out inp count : Word} {s : State}
    (hinp : s.admits inp.toNat (64 * s.lanesOf * count.toNat) = true)
    (hout : s.admits out.toNat (32 * s.lanesOf) = true) : exec (.shaTrunk out inp count) s =
      .next ((shaFinish out.toNat (shaTrunkState s.lanesOf s.mem inp.toNat count.toNat) s).retire 4) := by
  rw [exec_shaTrunk, engineTrunk_admitted hinp hout]

/-- Settles O33: the checks pass, and a lane of the new HashState is that lane compressed. -/
theorem shaBlockCompressesLanes : Obligations.ShaBlockCompressesLanes := fun s _ hst hadm =>
  ⟨_, exec_shaBlock_active hst hadm, fun _ hi => lane_shaGroup s.mem _ s.hs hi, rfl, ⟨rfl, rfl⟩,
    shaFrame_putSha_retire s s.mem .., fun _ => rfl⟩

/-- Settles O35: the checks pass, and the finish writes the HashState's words into the buffer alone. -/
theorem shaSaveWritesDigests : Obligations.ShaSaveWritesDigests := fun s _ hst hadm =>
  ⟨_, exec_shaSave_ready hst hadm, fun _ hi _ hj _ hk => read_shaFinish_inside s _ s.hs hi hj hk,
    fun _ hx => read_shaFinish_outside s s.hs hx, rfl, rfl, ⟨rfl, rfl⟩, shaFrame_shaFinish_retire s ..⟩

/-- Settles O37: the checks pass, the trunk's HashState is each lane's chaining value, and the finish writes its words. -/
theorem shaTrunkHashesTrunk : Obligations.ShaTrunkHashesTrunk := by
  intro s out inp count hinp hout
  refine ⟨_, exec_shaTrunk_admitted hinp hout, fun i hi => lane_shaTrunkState s.mem _ _ hi,
    fun i hi j hj k hk => ?_, fun x hx => read_shaFinish_outside s _ hx, rfl, ⟨rfl, rfl⟩,
    shaFrame_shaFinish_retire s ..⟩
  rw [← lane_shaTrunkState s.mem _ _ hi, ← lane_getD_toList]
  exact read_shaFinish_inside s _ _ hi hj hk

/-! ### TRUNK and the commands it stands for (R214) -/

theorem execAll_cons_next {i : Instr} {s t : State} (h : exec i s = .next t) (is : List Instr) :
    execAll (i :: is) s = execAll is t := by
  rw [execAll, h]

theorem execAll_append_next {is : List Instr} {s t : State} (h : execAll is s = .next t) (js : List Instr) :
    execAll (is ++ js) s = execAll js t := by
  induction is generalizing s with
  | nil =>
    cases h
    rfl
  | cons i is ih =>
    obtain ⟨s', hexec, -⟩ := exec_cases i s
    rw [execAll_cons_next hexec] at h
    rw [List.cons_append, execAll_cons_next hexec, ih h]

/-- `u` is `s` but for the packets consumed and the SHA-256 engine, which has hashed `n` round-groups of the trunk at
`inp`. -/
structure ShaRoundsDone (s : State) (inp n : Nat) (u : State) : Prop where
  inst : u.inst = s.inst
  mem : u.mem = s.mem
  sts : u.sts = .active
  hs : u.hs = shaTrunkState s.lanesOf s.mem inp n

theorem ShaRoundsDone.lanesOf {s u : State} {inp n : Nat} (h : ShaRoundsDone s inp n u) : u.lanesOf = s.lanesOf := by
  rw [State.lanesOf, h.inst, State.lanesOf]

theorem ShaRoundsDone.admits {s u : State} {inp n : Nat} (h : ShaRoundsDone s inp n u) (addr size : Nat) :
    u.admits addr size = s.admits addr size := by
  rw [State.admits, h.inst, State.admits]

/-- A round-group of an admitted trunk is admitted, at an address that the argument word holds without wrap. -/
theorem admits_roundGroup {s : State} {inp n count : Nat} (hn : n < count)
    (hinp : s.admits inp (64 * s.lanesOf * count) = true) :
    (BitVec.ofNat 32 (inp + 64 * s.lanesOf * n)).toNat = inp + 64 * s.lanesOf * n ∧
      s.admits (inp + 64 * s.lanesOf * n) (64 * s.lanesOf) = true := by
  have hend : 64 * s.lanesOf * n + 64 * s.lanesOf ≤ 64 * s.lanesOf * count := by
    rw [← Nat.mul_succ]
    exact Nat.mul_le_mul_left _ hn
  have hfit := ((s.admits_iff _ _).1 hinp).1
  have hpos := lanesOf_pos s
  refine ⟨?_, State.admits_part hinp (Nat.le_add_right _ _) (by omega)⟩
  rw [BitVec.toNat_ofNat, Nat.mod_eq_of_lt (by omega)]

/-- The SHA_BLOCK of the next round-group does one round more. -/
theorem ShaRoundsDone.block {s u : State} {inp n count : Nat} (h : ShaRoundsDone s inp n u) (hn : n < count)
    (hinp : s.admits inp (64 * s.lanesOf * count) = true) :
    ∃ u', exec (.shaBlock (BitVec.ofNat 32 (inp + 64 * s.lanesOf * n))) u = .next u' ∧
      ShaRoundsDone s inp (n + 1) u' := by
  obtain ⟨haddr, hadm⟩ := admits_roundGroup hn hinp
  refine ⟨_, exec_shaBlock_active h.sts (by rwa [haddr, h.lanesOf, h.admits]), h.inst, h.mem, rfl, ?_⟩
  rw [State.retire_hs, State.putSha_hs, haddr, h.lanesOf, h.mem, h.hs]
  rfl

/-- SHA_INIT and the SHA_BLOCKs of the first `n` round-groups do `n` rounds. -/
theorem execAll_shaInit_shaBlocks {s : State} {inp n count : Nat} (hn : n ≤ count)
    (hinp : s.admits inp (64 * s.lanesOf * count) = true) :
    ∃ u, execAll ([.shaInit] ++ (List.range n).map fun r =>
        .shaBlock (BitVec.ofNat 32 (inp + 64 * s.lanesOf * r))) s = .next u ∧ ShaRoundsDone s inp n u := by
  induction n with
  | zero => exact ⟨_, rfl, rfl, rfl, rfl, rfl⟩
  | succ n ih =>
    obtain ⟨u, hrun, hu⟩ := ih (Nat.le_of_succ_le hn)
    obtain ⟨u', hexec, hu'⟩ := hu.block hn hinp
    refine ⟨u', ?_, hu'⟩
    rw [List.range_succ, List.map_append, ← List.append_assoc, execAll_append_next hrun]
    exact execAll_cons_next hexec []

/-- Settles O39: INIT and the BLOCKs leave memory as it was and the trunk's chaining values in `HS`, so that SAVE finishes
as TRUNK does. -/
theorem shaTrunkEqualsSteps : Obligations.ShaTrunkEqualsSteps := by
  intro s out inp count hinp hout
  obtain ⟨u, hrun, hu⟩ := execAll_shaInit_shaBlocks le_rfl hinp
  have hsave : exec (.shaSave out) u = .next ((shaFinish out.toNat u.hs u).retire 2) :=
    exec_shaSave_ready (by simp [hu.sts]) (by rwa [hu.lanesOf, hu.admits])
  refine ⟨_, (shaFinish out.toNat u.hs u).retire 2, exec_shaTrunk_admitted hinp hout, ?_, hu.hs.symm, rfl, ?_⟩
  · rw [execAll_append_next hrun]
    exact execAll_cons_next hsave []
  · simp only [State.retire_mem, shaFinish, State.putSha_mem, State.putMem_mem, hu.mem, hu.lanesOf, hu.hs]

/-! ### A digest on any width (R215) -/

theorem rounds_congr {α : Type} {f g : Nat → α → α} {n : Nat} (h : ∀ r, r < n → f r = g r) (x : α) :
    rounds f n x = rounds g n x := by
  induction n with
  | zero => rfl
  | succ n ih => rw [rounds, rounds, h n n.lt_succ_self, ih fun r hr => h r (Nat.lt_succ_of_lt hr)]

/-- A lane's chaining value depends on the bytes of that lane's blocks alone. -/
theorem laneSha_congr {m m' : Memory} {inp inp' w w' i i' count : Nat}
    (h : ∀ r, r < count → ∀ k, k < 64 → m.read (trunkBlock inp w r i + k) = m'.read (trunkBlock inp' w' r i' + k)) :
    laneSha m inp w i count = laneSha m' inp' w' i' count :=
  rounds_congr (fun r hr => funext fun x => by rw [Memory.readBytes_congr (h r hr)]) iv256

/-- Settles O41: both lanes hash like blocks, and byte `k` of a record is byte `k % 4` of its word `k / 4`. -/
theorem shaDigestIndependentOfWidth : Obligations.ShaDigestIndependentOfWidth := by
  intro s u out inp out' inp' count i hi hu hinp hout hinp' hout' hbytes
  have hone : u.lanesOf = 1 := by rw [State.lanesOf, hu, Width.lanes]
  have hlane : laneSha s.mem inp.toNat s.lanesOf i count.toNat = laneSha u.mem inp'.toNat u.lanesOf 0 count.toNat := by
    rw [hone]
    exact laneSha_congr hbytes
  obtain ⟨s', hexec, hhs, hdigest, -⟩ := shaTrunkHashesTrunk s out inp count hinp hout
  obtain ⟨u', hexec', hhs', hdigest', -⟩ := shaTrunkHashesTrunk u out' inp' count hinp' hout'
  refine ⟨s', u', hexec, hexec', ?_, fun k hk => ?_⟩
  · rw [hhs i hi, hhs' 0 (lanesOf_pos u), hlane]
  · have hword : k / 4 < 8 := by omega
    have hbyte : k % 4 < 4 := Nat.mod_lt _ (by decide)
    calc s'.mem.read (out.toNat + 32 * i + k)
        = s'.mem.read (out.toNat + 32 * i + 4 * (k / 4) + k % 4) := by rw [Nat.add_assoc _ (4 * _), Nat.div_add_mod]
      _ = u'.mem.read (out'.toNat + 32 * 0 + 4 * (k / 4) + k % 4) := by
          rw [hdigest i hi _ hword _ hbyte, hdigest' 0 (lanesOf_pos u) _ hword _ hbyte, hlane]
      _ = u'.mem.read (out'.toNat + k) := by rw [Nat.mul_zero, Nat.add_zero, Nat.add_assoc, Nat.div_add_mod]

end Sys2Proof.Machine
end

section
/-! SUPPORT. The SHA-256 compression function as the spec indexes it (42_sha256.md R203 to R207): the message words, the
schedule and the rounds by `t`. -/

namespace Sys2Proof.Machine

/-! ### `Ch` and `Maj` -/

theorem ch_textbook_bool : ∀ p q r : Bool, (r ^^ (p && (q ^^ r))) = ((p && q) ^^ (!p && r)) := by decide

theorem maj_textbook_bool :
    ∀ p q r : Bool, (p && q || r && (p || q)) = ((p && q) ^^ (p && r) ^^ (q && r)) := by decide

/-- Settles O45: both identities hold of each bit. -/
theorem chAndMajAreTextbook : Obligations.ChAndMajAreTextbook := by
  intro a b c
  constructor
  · refine BitVec.eq_of_getLsbD_eq fun k hk => ?_
    simp only [shaCh, BitVec.getLsbD_xor, BitVec.getLsbD_and, BitVec.getLsbD_not, hk, decide_true, Bool.true_and]
    exact ch_textbook_bool _ _ _
  · refine BitVec.eq_of_getLsbD_eq fun k _ => ?_
    simp only [shaMaj, BitVec.getLsbD_xor, BitVec.getLsbD_and, BitVec.getLsbD_or]
    exact maj_textbook_bool _ _ _

/-! ### Message words -/

/-- Word `t` is the 4 bytes at offset `4·t` (20_memory.md R68). -/
theorem getD_wordsOf (bo : ByteOrder) {bs : List Byte} {t : Nat} (ht : 4 * t + 3 < bs.length) :
    (wordsOf bo bs).getD t 0 =
      decWord bo (bs.getD (4 * t) 0) (bs.getD (4 * t + 1) 0) (bs.getD (4 * t + 2) 0) (bs.getD (4 * t + 3) 0) := by
  induction t generalizing bs with
  | zero =>
    match bs, ht with
    | b0 :: b1 :: b2 :: b3 :: bs, _ => rfl
  | succ t ih =>
    match bs, ht with
    | b0 :: b1 :: b2 :: b3 :: bs, ht =>
      simp only [List.length_cons] at ht
      exact ih (by omega)

theorem length_wordsOf (bo : ByteOrder) {n : Nat} {bs : List Byte} (h : bs.length = 4 * n) :
    (wordsOf bo bs).length = n := by
  induction n generalizing bs with
  | zero => rw [List.length_eq_zero_iff.1 h]; rfl
  | succ n ih =>
    match bs, h with
    | b0 :: b1 :: b2 :: b3 :: bs, h =>
      simp only [List.length_cons] at h
      simp only [wordsOf, List.length_cons, ih (bs := bs) (by omega)]

/-! ### The schedule -/

/-- The last word of an extension is computed from the words before it. -/
theorem extendSchedule_succ (n : Nat) (newest : List Word) : extendSchedule (n + 1) newest =
    nextScheduleWord (extendSchedule n newest) :: extendSchedule n newest := by
  induction n generalizing newest with
  | zero => rfl
  | succ n ih => rw [extendSchedule, ih, extendSchedule]

theorem length_extendSchedule (n : Nat) (newest : List Word) :
    (extendSchedule n newest).length = newest.length + n := by
  induction n with
  | zero => rfl
  | succ n ih => rw [extendSchedule_succ, List.length_cons, ih, Nat.add_assoc]

/-- `k` words more move each word `k` places away from the newest. -/
theorem getD_extendSchedule_add (n k j : Nat) (newest : List Word) :
    (extendSchedule (n + k) newest).getD (j + k) 0 = (extendSchedule n newest).getD j 0 := by
  induction k with
  | zero => rfl
  | succ k ih => rw [← Nat.add_assoc, extendSchedule_succ, ← Nat.add_assoc, List.getD_cons_succ, ih]

theorem length_shaSchedule {block : List Word} (hlen : block.length = 16) : (shaSchedule block).length = 64 := by
  rw [shaSchedule, List.length_reverse, length_extendSchedule, List.length_reverse, hlen]

/-- When the schedule is extended to words 0 to `n + 15`, the `j`-th newest is its word `n + 15 - j`. -/
theorem getD_shaSchedule {block : List Word} (hlen : block.length = 16) {n j t : Nat} (hn : n ≤ 48)
    (ht : t + j = n + 15) : (shaSchedule block).getD t 0 = (extendSchedule n block.reverse).getD j 0 := by
  have hall : (extendSchedule 48 block.reverse).length = 64 := by
    rw [length_extendSchedule, List.length_reverse, hlen]
  have hindex : 64 - 1 - t = j + (48 - n) := by omega
  have hsum : 48 = n + (48 - n) := by omega
  calc (shaSchedule block).getD t 0
      = (extendSchedule 48 block.reverse).getD (j + (48 - n)) 0 := by
        rw [shaSchedule, List.getD_reverse _ (by omega), hall, hindex]
    _ = (extendSchedule (n + (48 - n)) block.reverse).getD (j + (48 - n)) 0 := by rw [← hsum]
    _ = (extendSchedule n block.reverse).getD j 0 := getD_extendSchedule_add ..

theorem getD_shaSchedule_block {block : List Word} (hlen : block.length = 16) {t : Nat} (ht : t < 16) :
    (shaSchedule block).getD t 0 = block.getD t 0 := by
  have hback : block.length - 1 - (15 - t) = t := by omega
  rw [getD_shaSchedule hlen (n := 0) (j := 15 - t) (by omega) (by omega), extendSchedule,
    List.getD_reverse _ (by omega), hback]

/-- The recurrence of R204. -/
theorem getD_shaSchedule_recurrence {block : List Word} (hlen : block.length = 16) {t : Nat} (hlo : 16 ≤ t)
    (hhi : t < 64) :
    (shaSchedule block).getD t 0 = (shaSchedule block).getD (t - 16) 0
      + smallSigma0 ((shaSchedule block).getD (t - 15) 0) + (shaSchedule block).getD (t - 7) 0
      + smallSigma1 ((shaSchedule block).getD (t - 2) 0) := by
  have earlier {j : Nat} (hj : j ≤ 15) :
      (shaSchedule block).getD (t - 1 - j) 0 = (extendSchedule (t - 16) block.reverse).getD j 0 :=
    getD_shaSchedule hlen (by omega) (by omega)
  have h16 := earlier (j := 15) (by omega)
  have h15 := earlier (j := 14) (by omega)
  have h7 := earlier (j := 6) (by omega)
  have h2 := earlier (j := 1) (by omega)
  rw [Nat.sub_sub] at h16 h15 h7 h2
  rw [h16, h15, h7, h2, getD_shaSchedule hlen (n := t - 16 + 1) (j := 0) (by omega) (by omega), extendSchedule_succ]
  rfl

/-! ### The rounds -/

theorem rounds_succ_eq_shift {α : Type} (f : Nat → α → α) (n : Nat) (x : α) :
    rounds f (n + 1) x = rounds (fun t => f (t + 1)) n (f 0 x) := by
  induction n with
  | zero => rfl
  | succ n ih => rw [rounds, ih, rounds]

/-- Round `t` of a run with constants `ks` and schedule words `ws` (R205). -/
def shaRoundAt (ks ws : List Word) (t : Nat) (r : Hash8 Word) : Hash8 Word := shaRound r (ks.getD t 0) (ws.getD t 0)

theorem shaRounds_eq_rounds {ks ws : List Word} (hlen : ks.length = ws.length) (x : Hash8 Word) :
    shaRounds ks ws x = rounds (shaRoundAt ks ws) ks.length x := by
  induction ks generalizing ws x with
  | nil => rw [shaRounds.eq_def]; rfl
  | cons k ks ih =>
    match ws, hlen with
    | w :: ws, hlen =>
      rw [shaRounds, ih (Nat.succ.inj hlen), List.length_cons, rounds_succ_eq_shift]
      rfl

/-- Settles O44: the schedule's words by index, and the registers before round `t` as the first `t` rounds. -/
theorem shaCompressFollowsRounds : Obligations.ShaCompressFollowsRounds := by
  intro x blk hblk
  have hwords : (wordsOf .be blk).length = 16 := length_wordsOf .be hblk
  refine ⟨shaK, fun t => (shaSchedule (wordsOf .be blk)).getD t 0,
    fun t => rounds (shaRoundAt shaK (shaSchedule (wordsOf .be blk))) t x, rfl, fun t ht => ?_,
    fun t hlo hhi => getD_shaSchedule_recurrence hwords hlo hhi, rfl, fun t _ => ⟨_, _, rfl, rfl, rfl⟩, ?_⟩
  · exact (getD_shaSchedule_block hwords ht).trans (getD_wordsOf .be (by omega))
  · rw [shaCompress, shaRounds_eq_rounds (ks := shaK) (length_shaSchedule hwords).symm]
    rfl

end Sys2Proof.Machine
end

section
/-! SUPPORT. RMD_BLOCK, RMD_SAVE and RMD_TRUNK (43_ripemd160.md R261 to R265): each lane by itself, the digests written, and
TRUNK against the commands it stands for. -/

namespace Sys2Proof.Machine

/-! ### A lane of the HashState -/

/-- A view of the value that every round respects is respected by all of them. -/
theorem map_rounds {α β : Type} {φ : α → β} {f : Nat → α → α} {g : Nat → β → β}
    (h : ∀ r x, φ (f r x) = g r (φ x)) (n : Nat) (x : α) : φ (rounds f n x) = rounds g n (φ x) := by
  induction n with
  | zero => rfl
  | succ n ih => rw [rounds, h, ih, rounds]

/-- Lane `i`'s block in the round-group of round `r` stands where R69 puts it. -/
theorem roundGroup_add_lane (inp w r i : Nat) : inp + 64 * w * r + 64 * i = trunkBlock inp w r i := by
  rw [trunkBlock, Nat.mul_add, Nat.mul_assoc, Nat.add_assoc]

theorem lane_rmdGroup (m : Memory) (base : Nat) (x : Hash5 VectorWord) {w i : Nat} (hi : i < w) :
    (rmdGroup w m base x).lane i = rmdCompress (x.lane i) (m.readBytes (base + 64 * i) 64) :=
  Hash5.lane_ofLanes _ _ _ hi

/-- A trunk hashes each lane by itself, since every round-group does. -/
theorem lane_rmdTrunkState (m : Memory) (inp count : Nat) {w i : Nat} (hi : i < w) :
    (rmdTrunkState w m inp count).lane i = laneRmd m inp w i count := by
  have hround (r : Nat) (x : Hash5 VectorWord) : (rmdGroup w m (inp + 64 * w * r) x).lane i =
      rmdCompress (x.lane i) (m.readBytes (trunkBlock inp w r i) 64) := by
    rw [lane_rmdGroup m _ x hi, roundGroup_add_lane]
  rw [laneRmd, ← lane_rmdIvLanes hi]
  exact map_rounds (φ := fun x : Hash5 VectorWord => x.lane i) hround count _

theorem Hash5.lane_getD_toList (x : Hash5 VectorWord) (i j : Nat) :
    Sys2Proof.Machine.lane (x.toList.getD j []) i = (x.lane i).toList.getD j 0 :=
  (List.getD_map (l := x.toList) (d := []) (n := j) fun y => Sys2Proof.Machine.lane y i).symm

/-! ### What a finish writes -/

theorem read_rmdFinish_inside (s : State) (out : Nat) (x : Hash5 VectorWord) {i j k : Nat} (hi : i < s.lanesOf)
    (hj : j < 5) (hk : k < 4) :
    (rmdFinish out x s).mem.read (out + 20 * i + 4 * j + k) = (encLe32 (lane (x.toList.getD j []) i)).getD k 0 :=
  s.mem.read_digestChunks_inside .le out (xs := x.toList) le_rfl hi hj hk

theorem read_rmdFinish_outside (s : State) {out a : Nat} (x : Hash5 VectorWord)
    (ha : ¬(out ≤ a ∧ a < out + 20 * s.lanesOf)) : (rmdFinish out x s).mem.read a = s.mem.read a :=
  s.mem.read_digestChunks_outside .le (xs := x.toList) le_rfl ha

/-! ### The commands -/

theorem exec_rmdBlock_active {addr : Word} {s : State} (hst : s.str = .active)
    (hadm : s.admits addr.toNat (64 * s.lanesOf) = true) : exec (.rmdBlock addr) s =
      .next ((s.putRmd (rmdGroup s.lanesOf s.mem addr.toNat s.hr) .active).retire 2) := by
  rw [exec_rmdBlock, engineBlock_of_active hst _ hadm]

theorem exec_rmdSave_ready {out : Word} {s : State} (hst : s.str ≠ .uninit)
    (hadm : s.admits out.toNat (20 * s.lanesOf) = true) :
    exec (.rmdSave out) s = .next ((rmdFinish out.toNat s.hr s).retire 2) := by
  rw [exec_rmdSave, engineSave_ready hst hadm]

theorem exec_rmdTrunk_admitted {out inp count : Word} {s : State}
    (hinp : s.admits inp.toNat (64 * s.lanesOf * count.toNat) = true)
    (hout : s.admits out.toNat (20 * s.lanesOf) = true) : exec (.rmdTrunk out inp count) s =
      .next ((rmdFinish out.toNat (rmdTrunkState s.lanesOf s.mem inp.toNat count.toNat) s).retire 4) := by
  rw [exec_rmdTrunk, engineTrunk_admitted hinp hout]

/-- Settles O34: the checks pass, and a lane of the new HashState is that lane compressed. -/
theorem rmdBlockCompressesLanes : Obligations.RmdBlockCompressesLanes := fun s _ hst hadm =>
  ⟨_, exec_rmdBlock_active hst hadm, fun _ hi => lane_rmdGroup s.mem _ s.hr hi, rfl, ⟨rfl, rfl⟩,
    rmdFrame_putRmd_retire s s.mem .., fun _ => rfl⟩

/-- Settles O36: the checks pass, and the finish writes the HashState's words into the buffer alone. -/
theorem rmdSaveWritesDigests : Obligations.RmdSaveWritesDigests := fun s _ hst hadm =>
  ⟨_, exec_rmdSave_ready hst hadm, fun _ hi _ hj _ hk => read_rmdFinish_inside s _ s.hr hi hj hk,
    fun _ hx => read_rmdFinish_outside s s.hr hx, rfl, rfl, ⟨rfl, rfl⟩, rmdFrame_putRmd_retire s ..⟩

/-- Settles O38: the checks pass, the trunk's HashState is each lane's chaining value, and the finish writes its words. -/
theorem rmdTrunkHashesTrunk : Obligations.RmdTrunkHashesTrunk := by
  intro s out inp count hinp hout
  refine ⟨_, exec_rmdTrunk_admitted hinp hout, fun i hi => lane_rmdTrunkState s.mem _ _ hi,
    fun i hi j hj k hk => ?_, fun x hx => read_rmdFinish_outside s _ hx, rfl, ⟨rfl, rfl⟩,
    rmdFrame_putRmd_retire s ..⟩
  rw [← lane_rmdTrunkState s.mem _ _ hi, ← Hash5.lane_getD_toList]
  exact read_rmdFinish_inside s _ _ hi hj hk

/-! ### TRUNK and the commands it stands for (R264) -/

/-- An invariant by rounds: established by the first command, carried from `r` to `r + 1` by the command of round `r`. -/
theorem execAll_rounds {P : Nat → State → Prop} {init : Instr} {block : Nat → Instr} {s : State} {n count : Nat}
    (hinit : ∃ u, exec init s = .next u ∧ P 0 u)
    (hblock : ∀ r u, r < count → P r u → ∃ u', exec (block r) u = .next u' ∧ P (r + 1) u') (hn : n ≤ count) :
    ∃ u, execAll ([init] ++ (List.range n).map block) s = .next u ∧ P n u := by
  induction n with
  | zero =>
    obtain ⟨u, hexec, hu⟩ := hinit
    exact ⟨u, execAll_cons_next hexec [], hu⟩
  | succ n ih =>
    obtain ⟨u, hrun, hu⟩ := ih (Nat.le_of_succ_le hn)
    obtain ⟨u', hexec, hu'⟩ := hblock n u hn hu
    refine ⟨u', ?_, hu'⟩
    rw [List.range_succ, List.map_append, ← List.append_assoc, execAll_append_next hrun]
    exact execAll_cons_next hexec []

/-- `u` is ready for RMD_BLOCK or RMD_SAVE over the memory of `s`, its engine having hashed `n` round-groups of the trunk
at `inp`. -/
structure RmdRoundsDone (s : State) (inp n : Nat) (u : State) : Prop where
  inst : u.inst = s.inst
  mem : u.mem = s.mem
  str : u.str = .active
  hr : u.hr = rmdTrunkState s.lanesOf s.mem inp n

theorem RmdRoundsDone.lanesOf {s u : State} {inp n : Nat} (h : RmdRoundsDone s inp n u) : u.lanesOf = s.lanesOf := by
  rw [State.lanesOf, h.inst, State.lanesOf]

theorem RmdRoundsDone.admits {s u : State} {inp n : Nat} (h : RmdRoundsDone s inp n u) (addr size : Nat) :
    u.admits addr size = s.admits addr size := by
  rw [State.admits, h.inst, State.admits]

/-- The RMD_BLOCK of the next round-group does one round more. -/
theorem RmdRoundsDone.block {s u : State} {inp n count : Nat} (h : RmdRoundsDone s inp n u) (hn : n < count)
    (hinp : s.admits inp (64 * s.lanesOf * count) = true) :
    ∃ u', exec (.rmdBlock (BitVec.ofNat 32 (inp + 64 * s.lanesOf * n))) u = .next u' ∧
      RmdRoundsDone s inp (n + 1) u' := by
  obtain ⟨haddr, hadm⟩ := admits_roundGroup hn hinp
  refine ⟨_, exec_rmdBlock_active h.str (by rwa [haddr, h.lanesOf, h.admits]), h.inst, h.mem, rfl, ?_⟩
  rw [State.retire_hr, State.putRmd_hr, haddr, h.lanesOf, h.mem, h.hr]
  rfl

/-- Settles O40: INIT and the BLOCKs leave memory as it was and the trunk's chaining values in `HR`, so that SAVE finishes
as TRUNK does. -/
theorem rmdTrunkEqualsSteps : Obligations.RmdTrunkEqualsSteps := by
  intro s out inp count hinp hout
  obtain ⟨u, hrun, hu⟩ := execAll_rounds (P := RmdRoundsDone s inp.toNat) (init := .rmdInit) (s := s)
    ⟨_, rfl, rfl, rfl, rfl, rfl⟩ (fun _ _ hr hu => hu.block hr hinp) le_rfl
  have hsave : exec (.rmdSave out) u = .next ((rmdFinish out.toNat u.hr u).retire 2) :=
    exec_rmdSave_ready (by simp [hu.str]) (by rwa [hu.lanesOf, hu.admits])
  refine ⟨_, (rmdFinish out.toNat u.hr u).retire 2, exec_rmdTrunk_admitted hinp hout, ?_, hu.hr.symm, rfl, ?_⟩
  · rw [execAll_append_next hrun]
    exact execAll_cons_next hsave []
  · simp only [State.retire_mem, rmdFinish, State.putRmd_mem, State.putMem_mem, hu.mem, hu.lanesOf, hu.hr]

/-! ### A digest on any width (R265) -/

/-- A lane's chaining value depends on the bytes of that lane's blocks alone. -/
theorem laneRmd_congr {m m' : Memory} {inp inp' w w' i i' count : Nat}
    (h : ∀ r, r < count → ∀ k, k < 64 → m.read (trunkBlock inp w r i + k) = m'.read (trunkBlock inp' w' r i' + k)) :
    laneRmd m inp w i count = laneRmd m' inp' w' i' count :=
  rounds_congr (fun r hr => funext fun x => by rw [Memory.readBytes_congr (h r hr)]) iv160

/-- Byte `k` of a record is byte `k % 4` of its word `k / 4`. -/
theorem add_word_add_byte (base k : Nat) : base + 4 * (k / 4) + k % 4 = base + k := by
  rw [Nat.add_assoc, Nat.div_add_mod]

/-- Settles O42: both lanes hash like blocks, so that the words of their records are the same. -/
theorem rmdDigestIndependentOfWidth : Obligations.RmdDigestIndependentOfWidth := by
  intro s u out inp out' inp' count i hi hu hinp hout hinp' hout' hbytes
  have hone : u.lanesOf = 1 := by rw [State.lanesOf, hu, Width.lanes]
  have hlane : laneRmd s.mem inp.toNat s.lanesOf i count.toNat = laneRmd u.mem inp'.toNat u.lanesOf 0 count.toNat := by
    rw [hone]
    exact laneRmd_congr hbytes
  obtain ⟨s', hexec, hhr, hdigest, -⟩ := rmdTrunkHashesTrunk s out inp count hinp hout
  obtain ⟨u', hexec', hhr', hdigest', -⟩ := rmdTrunkHashesTrunk u out' inp' count hinp' hout'
  refine ⟨s', u', hexec, hexec', ?_, fun k hk => ?_⟩
  · rw [hhr i hi, hhr' 0 (lanesOf_pos u), hlane]
  · have hword : k / 4 < 5 := by omega
    have hbyte : k % 4 < 4 := Nat.mod_lt _ (by decide)
    have hrecord : out'.toNat + 20 * 0 = out'.toNat := rfl
    rw [← hrecord, ← add_word_add_byte _ k, ← add_word_add_byte (out'.toNat + 20 * 0) k,
      hdigest i hi _ hword _ hbyte, hdigest' 0 (lanesOf_pos u) _ hword _ hbyte, hlane]

end Sys2Proof.Machine
end

section
/-! SUPPORT. The RIPEMD-160 compression function as the spec indexes it (43_ripemd160.md R252 to R259): the rounds of a line by
`t`, over the tables of its stages put end to end. -/

namespace Sys2Proof.Machine

theorem rounds_add {α : Type} (f : Nat → α → α) (m n : Nat) (x : α) :
    rounds f (m + n) x = rounds (fun t => f (m + t)) n (rounds f m x) := by
  induction n with
  | zero => rfl
  | succ n ih => rw [← Nat.add_assoc, rounds, ih, rounds]

/-- The rounds of one stage, by their index in it. -/
theorem rmdStage_eq_rounds (f : Word → Word → Word → Word) (k : Word) (xs : List Word) {ixs ns : List Nat}
    (hlen : ixs.length = ns.length) (r : Hash5 Word) : rmdStage f k xs ixs ns r =
      rounds (fun t => rmdRound f (xs.getD (ixs.getD t 0) 0) k (ns.getD t 0)) ixs.length r := by
  induction ixs generalizing ns r with
  | nil => rw [rmdStage.eq_def]; rfl
  | cons ix ixs ih =>
    match ns, hlen with
    | n :: ns, hlen =>
      rw [rmdStage, ih (Nat.succ.inj hlen), List.length_cons, rounds_succ_eq_shift]
      rfl

/-- Every stage has its 16 message-word indices and its 16 rotation amounts. -/
def FullStages (stages : List RmdStage) : Prop :=
  ∀ st ∈ stages, st.indices.length = 16 ∧ st.amounts.length = 16

/-- Round `t` of a line (R257): stage `t / 16` gives the function and the constant, and the stages' tables put end to end
give the message-word index and the rotation. -/
def rmdRoundAt (stages : List RmdStage) (xs : List Word) (t : Nat) : Hash5 Word → Hash5 Word :=
  rmdRound ((stages.map (·.f)).getD (t / 16) rmdF1) (xs.getD ((stages.flatMap (·.indices)).getD t 0) 0)
    ((stages.map (·.k)).getD (t / 16) 0) ((stages.flatMap (·.amounts)).getD t 0)

section
variable {st : RmdStage} (hixs : st.indices.length = 16) (hns : st.amounts.length = 16)
include hixs hns

theorem rmdRoundAt_cons_of_lt (stages : List RmdStage) (xs : List Word) {t : Nat} (ht : t < 16) :
    rmdRoundAt (st :: stages) xs t =
      rmdRound st.f (xs.getD (st.indices.getD t 0) 0) st.k (st.amounts.getD t 0) := by
  rw [rmdRoundAt, Nat.div_eq_of_lt ht, List.flatMap_cons, List.flatMap_cons, List.getD_append _ _ _ _ (by omega),
    List.getD_append _ _ _ _ (by omega)]
  rfl

theorem rmdRoundAt_cons_add (stages : List RmdStage) (xs : List Word) (t : Nat) :
    rmdRoundAt (st :: stages) xs (16 + t) = rmdRoundAt stages xs t := by
  have hstage : (16 + t) / 16 = t / 16 + 1 := by omega
  rw [rmdRoundAt, hstage, List.flatMap_cons, List.flatMap_cons, List.getD_append_right _ _ _ _ (by omega),
    List.getD_append_right _ _ _ _ (by omega), hixs, hns, Nat.add_sub_cancel_left]
  rfl

end

/-- A line is its rounds by `t`: the first stage is rounds 0 to 15, and the later ones follow. -/
theorem rmdLine_eq_rounds {stages : List RmdStage} (hfull : FullStages stages) (xs : List Word) (r : Hash5 Word) :
    rmdLine stages xs r = rounds (rmdRoundAt stages xs) (16 * stages.length) r := by
  induction stages generalizing r with
  | nil => rfl
  | cons st stages ih =>
    obtain ⟨⟨hixs, hns⟩, hrest⟩ := List.forall_mem_cons.1 hfull
    have hfirst : rmdStage st.f st.k xs st.indices st.amounts r = rounds (rmdRoundAt (st :: stages) xs) 16 r := by
      rw [rmdStage_eq_rounds st.f st.k xs (hixs.trans hns.symm), hixs]
      exact rounds_congr (fun t ht => (rmdRoundAt_cons_of_lt hixs hns stages xs ht).symm) r
    calc rmdLine (st :: stages) xs r
        = rmdLine stages xs (rmdStage st.f st.k xs st.indices st.amounts r) := rfl
      _ = rounds (rmdRoundAt stages xs) (16 * stages.length) (rounds (rmdRoundAt (st :: stages) xs) 16 r) := by
          rw [ih hrest, hfirst]
      _ = rounds (rmdRoundAt (st :: stages) xs) (16 + 16 * stages.length) r := by
          rw [rounds_add]
          exact rounds_congr (fun t _ => (rmdRoundAt_cons_add hixs hns stages xs t).symm) _
      _ = rounds (rmdRoundAt (st :: stages) xs) (16 * (st :: stages).length) r := by
          rw [List.length_cons, Nat.mul_succ, Nat.add_comm]

theorem fullStages_leftLine : FullStages leftLine := by
  unfold FullStages
  decide

theorem fullStages_rightLine : FullStages rightLine := by
  unfold FullStages
  decide

/-- R256 and R257 for round `t` of a line of five stages with the constants `ks`. -/
theorem exists_rmdRoundAt_eq {stages : List RmdStage} (hfive : stages.length = 5) {ks : List Word}
    (hks : stages.map (·.k) = ks) (xs : List Word) {t : Nat} (ht : t < 80) (r : Hash5 Word) :
    ∃ f, (stages.map (·.f))[t / 16]? = some f ∧
      rmdRoundAt stages xs t r = ⟨r.e,
        rotl32 (r.a + f r.b r.c r.d + xs.getD ((stages.flatMap (·.indices)).getD t 0) 0 + ks.getD (t / 16) 0)
          ((stages.flatMap (·.amounts)).getD t 0) + r.e,
        r.b, rotl32 r.c 10, r.d⟩ := by
  have hstage : t / 16 < (stages.map (·.f)).length := by
    rw [List.length_map]
    omega
  refine ⟨_, List.getElem?_eq_getElem hstage, ?_⟩
  rw [rmdRoundAt, List.getD_eq_getElem _ _ hstage, hks]
  rfl

/-- Settles O46: the message words by index, and each line's registers before round `t` as its first `t` rounds. -/
theorem rmdCompressFollowsRounds : Obligations.RmdCompressFollowsRounds := by
  intro x blk hblk
  refine ⟨leftLine.flatMap (·.indices), rightLine.flatMap (·.indices), leftLine.flatMap (·.amounts),
    rightLine.flatMap (·.amounts), leftLine.map (·.f), rightLine.map (·.f), fun t => (wordsOf .le blk).getD t 0,
    fun t => rounds (rmdRoundAt leftLine (wordsOf .le blk)) t x,
    fun t => rounds (rmdRoundAt rightLine (wordsOf .le blk)) t x, rfl, rfl, rfl, rfl, rfl, rfl,
    fun t ht => getD_wordsOf .le (by omega), rfl, rfl, fun t ht => exists_rmdRoundAt_eq rfl rfl _ ht _,
    fun t ht => exists_rmdRoundAt_eq rfl rfl _ ht _, ?_⟩
  rw [rmdCompress, rmdLine_eq_rounds fullStages_leftLine, rmdLine_eq_rounds fullStages_rightLine]
  rfl

end Sys2Proof.Machine
end

section
/-! SUPPORT. Fault entry, and what the host can do to a halted engine, to data memory, and to one instance of several
(60_exceptions.md R304, R306, R308, R315, R320; 20_memory.md R62, R79). -/

namespace Sys2Proof.Machine

/-! ### Halting -/

theorem step_of_halted {s : State} (h : s.halted = true) : step s = .fault .halted := by
  simp [step, fetch, h]

theorem portWriteReg_of_halted {s : State} (h : s.halted = true) (index : Nat) (w : Word) :
    portWriteReg s index w = s := by
  rcases portWriteReg_cases s index w with hsame | ⟨-, hrun, -⟩
  · exact hsame
  · simp [h] at hrun

/-- Settles O9: a host write of a byte puts memory alone, so that STATUS stays as it was, and reset clears it. -/
theorem haltedEngineOnlyLeavesByReset : Obligations.HaltedEngineOnlyLeavesByReset := by
  intro s hhalt
  refine ⟨step_of_halted hhalt, portWriteReg_of_halted hhalt, fun a b t hwrite => ?_, portReset_halted s⟩
  obtain ⟨-, rfl⟩ := portWriteMem_eq_some.1 hwrite
  exact ⟨rfl, hhalt⟩

/-- Settles O10: `State.takeFault` writes the four registers, and STATUS is the cause's word. -/
theorem faultEntryWritesOnlyFaultRegisters : Obligations.FaultEntryWritesOnlyFaultRegisters := by
  intro s c addr hdr args hcmds
  have hheader : s.header = hdr := by rw [State.header, hcmds, List.headD_cons]
  exact ⟨_, s.raise_eq c addr, faultFlag_statusWord c, causeField_statusWord c, statusWord_reserved c, hheader, rfl,
    rfl, rfl, rfl, rfl, rfl, ⟨rfl, rfl⟩, ⟨rfl, rfl⟩, rfl, rfl, s.takeFault_halted c addr⟩

/-! ### One instance of several -/

theorem System.commit_engines_of_ne (y : System) {k j : Nat} (h : j ≠ k) (t : State) :
    (y.commit k t).engines[j]? = y.engines[j]? :=
  List.getElem?_set_ne h.symm

/-- Settles O54: a move ends in the commit of the instance it concerns. -/
theorem instancesShareOnlyMemory : Obligations.InstancesShareOnlyMemory := by
  intro y y' mv j hmove hj
  obtain ⟨s, t, -, rfl, -⟩ := System.move_cases hmove
  exact y.commit_engines_of_ne hj t

/-! ### The host's moves -/

theorem portWriteMem_isMove_iff (s : State) (a : Nat) (b : Byte) :
    (∃ t, portWriteMem s a b = some t) ↔ a < 2 ^ 32 ∧ memAdmit s.inst.admitted a = true := by
  simp only [portWriteMem_eq_some, exists_and_left, exists_eq, and_true, State.admits_one]

/-- Settles O56: the write is a move where its one byte is admitted, and puts the memory with that byte written. -/
theorem hostMemoryAccess : Obligations.HostMemoryAccess := by
  refine fun s a b => ⟨portWriteMem_isMove_iff s a b, fun t hwrite => ?_⟩
  obtain ⟨-, rfl⟩ := portWriteMem_eq_some.1 hwrite
  exact ⟨rfl, fun x => s.mem.read_write a x b⟩

/-- Settles O58: one lemma for each action of the host. -/
theorem hostMovesKeepInvariant : Obligations.HostMovesKeepInvariant := fun _ hs =>
  ⟨portWriteReg_inv hs, fun _ _ _ hwrite => portWriteMem_inv hs hwrite, portReset_inv hs⟩

end Sys2Proof.Machine
end

section
/-! SUPPORT. The written flags a command checks (60_exceptions.md R302): the sources of a primitive by its form, and of
SAVE; no other command has a source register. -/

namespace Sys2Proof.Machine

/-- The forms of a primitive (40_backend_alu.md R131, R133), each with the sources whose flags it checks. -/
inductive PrimitiveForm : List Reg → (State → Result) → Prop where
  | broadcast (d : Reg) (imm : Word) : PrimitiveForm [] (execMirror d imm)
  | twoSource (d a b : Reg) (f : Word → Word → Word) : PrimitiveForm [a, b] (aluTwo d a b f)
  | oneSource (d a : Reg) (f : Word → Word) : PrimitiveForm [a] (aluOne d a f)

theorem primitiveForm_exec {i : Instr} (hi : familyOf i = .primitive) (hwf : i.wf = true) :
    PrimitiveForm (sourcesOf i) (exec i) := by
  cases i with
  | mirror d imm => exact .broadcast d imm
  | add d a b => exact .twoSource d a b _
  | xor d a b => exact .twoSource d a b _
  | or d a b => exact .twoSource d a b _
  | and d a b => exact .twoSource d a b _
  | andn d a b => exact .twoSource d a b (~~~· &&& ·)
  | shl d a n => exact .oneSource d a (shl32 · n.toNat)
  | shr d a n => exact .oneSource d a (shr32 · n.toNat)
  | rotl d a n =>
    have hn : n ≠ 0 := by
      rintro rfl
      simp [Instr.wf] at hwf
    rw [funext (exec_rotl hn d a)]
    exact .oneSource d a _
  | _ => cases hi

theorem PrimitiveForm.unwritten {ks : List Reg} {run : State → Result} (h : PrimitiveForm ks run) {s : State}
    {k : Reg} (hk : k ∈ ks) (hunwritten : s.written k = false) : run s = .next (s.takeFault .unwritten 0) := by
  cases h with
  | broadcast d imm => cases hk
  | twoSource d a b f =>
    rcases List.mem_pair.1 hk with rfl | rfl
    · exact aluTwo_unwritten (.inl hunwritten)
    · exact aluTwo_unwritten (.inr hunwritten)
  | oneSource d a f =>
    obtain rfl := List.mem_singleton.1 hk
    exact aluOne_unwritten hunwritten

/-- Whatever the destination's flag is, a primitive with its sources written completes. -/
theorem PrimitiveForm.completes {ks : List Reg} {run : State → Result} (h : PrimitiveForm ks run) {s : State}
    (hwritten : ∀ k ∈ ks, s.written k = true) : ∃ t, run s = .next t ∧ t.status = s.status := by
  cases h with
  | broadcast d imm => exact ⟨_, rfl, rfl⟩
  | twoSource d a b f => exact ⟨_, aluTwo_written (hwritten a (by simp)) (hwritten b (by simp)), rfl⟩
  | oneSource d a f => exact ⟨_, aluOne_written (hwritten a (by simp)), rfl⟩

theorem exec_save_unwritten {v : Reg} {recSize : BitVec 12} {s : State} (hrec : 4 ≤ recSize.toNat)
    (hv : s.written v = false) (bo : ByteOrder) (addr : Word) :
    exec (.save v bo recSize addr) s = .next (s.takeFault .unwritten 0) :=
  (if_neg (Nat.not_lt.2 hrec)).trans (if_pos hv)

/-- Of the commands that are no primitive, SAVE alone has a source register. -/
theorem eq_save_of_mem_sourcesOf {i : Instr} {k : Reg} (hk : k ∈ sourcesOf i) (hi : familyOf i ≠ .primitive) :
    ∃ bo recSize addr, i = .save k bo recSize addr := by
  cases i with
  | save v bo recSize addr =>
    obtain rfl := List.mem_singleton.1 hk
    exact ⟨bo, recSize, addr, rfl⟩
  | load | shaInit | shaBlock | shaSave | shaTrunk | rmdInit | rmdBlock | rmdSave | rmdTrunk => cases hk
  | _ => exact absurd rfl hi

theorem exec_source_unwritten {i : Instr} {s : State} {k : Reg} (hwf : i.wf = true) (hk : k ∈ sourcesOf i)
    (hunwritten : s.written k = false) : exec i s = .next (s.takeFault .unwritten 0) := by
  by_cases hi : familyOf i = .primitive
  · exact (primitiveForm_exec hi hwf).unwritten hk hunwritten
  · obtain ⟨bo, recSize, addr, rfl⟩ := eq_save_of_mem_sourcesOf hk hi
    exact exec_save_unwritten (of_decide_eq_true hwf) hunwritten bo addr

/-- Settles O22: a primitive by its form, SAVE and the engines by the check they make first, and LOAD checks no flag. -/
theorem unwrittenSourceRaisesUnwritten : Obligations.UnwrittenSourceRaisesUnwritten := by
  refine ⟨fun i s k hwf hk hunwritten => exec_source_unwritten hwf hk hunwritten, fun s x hst => ?_,
    fun s x hst => ?_, fun i s hi hwf hwritten => (primitiveForm_exec hi hwf).completes hwritten,
    fun s v bo addr hadm => ⟨_, exec_load_admitted hadm v bo, rfl⟩⟩
  · rw [exec_shaBlock, exec_shaSave]
    exact ⟨engineBlock_uninit hst .., engineSave_uninit hst ..⟩
  · rw [exec_rmdBlock, exec_rmdSave]
    exact ⟨engineBlock_uninit hst .., engineSave_uninit hst ..⟩

end Sys2Proof.Machine
end

section
/-! SUPPORT. The faults of a range that is not admitted (60_exceptions.md R303, R307; 20_memory.md R61): an equation per
shared operation, for the check that fails. -/

namespace Sys2Proof.Machine

theorem State.admitLanes_eq_false {s : State} {base stride i : Nat} (hi : i < s.lanesOf)
    (h : s.admits (base + stride * i) 4 = false) : s.admitLanes base stride = false := by
  by_contra hadm
  have hall := (s.admitLanes_iff base stride).1 (Bool.eq_true_of_not_eq_false hadm) i hi
  simp [h] at hall

theorem engineBlock_access {st : EngineStatus} (hst : st = .active) {addr : Word} {s : State}
    (h : s.admits addr.toNat (64 * s.lanesOf) = false) (f : State → State) :
    engineBlock st addr f s = .next (s.takeFault .access addr) := by
  subst hst
  simp [engineBlock, h, State.raise_eq]

theorem engineSave_access {st : EngineStatus} (hst : st ≠ .uninit) {out : Word} {size : Nat} {s : State}
    (h : s.admits out.toNat (size * s.lanesOf) = false) (f : State → State) :
    engineSave st out size f s = .next (s.takeFault .access out) := by
  cases st with
  | uninit => exact absurd rfl hst
  | active => simp [engineSave, h, State.raise_eq]
  | final => simp [engineSave, h, State.raise_eq]

theorem engineTrunk_input_access {inp count : Word} {s : State}
    (h : s.admits inp.toNat (64 * s.lanesOf * count.toNat) = false) (out : Word) (size : Nat) (f : State → State) :
    engineTrunk out inp count size f s = .next (s.takeFault .access inp) := by
  simp [engineTrunk, h, State.raise_eq]

/-- The output range is checked once the input range is admitted (R307). -/
theorem engineTrunk_output_access {out inp count : Word} {size : Nat} {s : State}
    (hinp : s.admits inp.toNat (64 * s.lanesOf * count.toNat) = true)
    (hout : s.admits out.toNat (size * s.lanesOf) = false) (f : State → State) :
    engineTrunk out inp count size f s = .next (s.takeFault .access out) := by
  simp [engineTrunk, hinp, hout, State.raise_eq]

theorem exec_load_access {addr : Word} {s : State} (h : s.admitLanes addr.toNat 64 = false) (v : Reg) (bo : ByteOrder) :
    exec (.load v bo addr) s = .next (s.takeFault .access addr) := by
  simp [exec, execLoad, h, State.raise_eq]

theorem exec_save_access {v : Reg} {recSize : BitVec 12} {addr : Word} {s : State} (hrec : 4 ≤ recSize.toNat)
    (hv : s.written v = true) (h : s.admitLanes addr.toNat recSize.toNat = false) (bo : ByteOrder) :
    exec (.save v bo recSize addr) s = .next (s.takeFault .access addr) := by
  simp [exec, execSave, hv, h, Nat.not_lt.2 hrec, State.raise_eq]

/-- Settles O30: LOAD and SAVE need every lane admitted, and each engine command is its shared operation. -/
theorem accessFaultsReportBase : Obligations.AccessFaultsReportBase := by
  refine ⟨fun s v bo addr i hi h => exec_load_access (State.admitLanes_eq_false hi h) v bo,
    fun s v bo recSize addr i hrec hv hi h => exec_save_access hrec hv (State.admitLanes_eq_false hi h) bo,
    fun s addr h => ?_, fun s out => ?_, fun s out inp count hinp => ?_, fun s out inp count hinp => ?_⟩
  · rw [exec_shaBlock, exec_rmdBlock]
    exact ⟨fun hst => engineBlock_access hst h _, fun hst => engineBlock_access hst h _⟩
  · rw [exec_shaSave, exec_rmdSave]
    exact ⟨fun hst hout => engineSave_access hst hout _, fun hst hout => engineSave_access hst hout _⟩
  · rw [exec_shaTrunk, exec_rmdTrunk]
    exact ⟨engineTrunk_input_access hinp .., engineTrunk_input_access hinp ..⟩
  · rw [exec_shaTrunk, exec_rmdTrunk]
    exact ⟨fun hout => engineTrunk_output_access hinp hout _, fun hout => engineTrunk_output_access hinp hout _⟩

end Sys2Proof.Machine
end

section
/-! SUPPORT. That control depends on no data (70_reset_and_hazards.md R360): every command moves what `SameControl`
speaks of as it does on the state with its data erased, since no check reads data. -/

namespace Sys2Proof.Machine

/-- `s` with its data, that is `V`, `HS`, `HR` and memory, replaced by fixed contents. -/
def State.eraseData (s : State) : State :=
  { s with v := State.reset.v, hs := State.reset.hs, hr := State.reset.hr, mem := State.reset.mem }

theorem sameControl_iff (s u : State) : SameControl s u ↔ u.eraseData = s.eraseData := by
  constructor
  · rintro ⟨hinst, hpc, hcmds, hsts, hstr, hstatus, hcmd, hfpc, haddr, hwritten⟩
    have hvw : u.vw = s.vw := Vector.ext fun k hk => hwritten ⟨k, hk⟩
    simp only [State.eraseData, hinst, hvw, hpc, hcmds, hsts, hstr, hstatus, hcmd, hfpc, haddr]
  · intro h
    simp only [State.eraseData, State.mk.injEq, true_and, and_true] at h
    obtain ⟨hinst, hvw, hpc, hcmds, hsts, hstr, hstatus, hcmd, hfpc, haddr⟩ := h
    refine ⟨hinst, hpc, hcmds, hsts, hstr, hstatus, hcmd, hfpc, haddr, fun k => ?_⟩
    rw [State.written, hvw, State.written]

/-- An outcome with the data of its next state erased. -/
def eraseAnswer : Result → Result
  | .next t => .next t.eraseData
  | .fault f => .fault f
  | .refused r => .refused r

theorem eraseAnswer_ite (p : Prop) [Decidable p] (r r' : Result) :
    eraseAnswer (if p then r else r') = if p then eraseAnswer r else eraseAnswer r' :=
  apply_ite eraseAnswer p r r'

theorem eq_next_of_eraseAnswer_eq {r : Result} {t : State} (h : eraseAnswer r = .next t) :
    ∃ t', r = .next t' ∧ t'.eraseData = t := by
  cases r with
  | next t' => exact ⟨t', rfl, Host.Outcome.next.inj h⟩
  | fault f => cases h
  | refused r => cases h

/-! ### The shared operations

Both sides make the same checks, and in each branch the states differ in data alone, which is erased. -/

theorem aluTwo_eraseData (d a b : Reg) (f : Word → Word → Word) (s : State) :
    eraseAnswer (aluTwo d a b f s.eraseData) = eraseAnswer (aluTwo d a b f s) := by
  simp only [aluTwo, eraseAnswer_ite]
  rfl

theorem aluOne_eraseData (d a : Reg) (f : Word → Word) (s : State) :
    eraseAnswer (aluOne d a f s.eraseData) = eraseAnswer (aluOne d a f s) := by
  simp only [aluOne, eraseAnswer_ite]
  rfl

section
variable {f : State → State} {s : State} (hf : (f s.eraseData).eraseData = (f s).eraseData)
include hf

theorem retire_eraseData (len : Nat) :
    eraseAnswer (.next ((f s.eraseData).retire len)) = eraseAnswer (.next ((f s).retire len)) :=
  congrArg (fun t : State => Host.Outcome.next (t.retire len)) hf

theorem engineBlock_eraseData (st : EngineStatus) (addr : Word) :
    eraseAnswer (engineBlock st addr f s.eraseData) = eraseAnswer (engineBlock st addr f s) := by
  cases st with
  | uninit => rfl
  | final => rfl
  | active =>
    simp only [engineBlock, eraseAnswer_ite, retire_eraseData hf]
    rfl

theorem engineSave_eraseData (st : EngineStatus) (out : Word) (size : Nat) :
    eraseAnswer (engineSave st out size f s.eraseData) = eraseAnswer (engineSave st out size f s) := by
  cases st with
  | uninit => rfl
  | active | final =>
    simp only [engineSave, eraseAnswer_ite, retire_eraseData hf]
    rfl

theorem engineTrunk_eraseData (out inp count : Word) (size : Nat) :
    eraseAnswer (engineTrunk out inp count size f s.eraseData) = eraseAnswer (engineTrunk out inp count size f s) := by
  simp only [engineTrunk, eraseAnswer_ite, retire_eraseData hf]
  rfl

end

/-! ### The engines' effects: they put the same status, whatever the data they put -/

theorem putSha_eraseData (s : State) (x y : Hash8 VectorWord) (st : EngineStatus) :
    (s.eraseData.putSha x st).eraseData = (s.putSha y st).eraseData := rfl

theorem putRmd_eraseData (s : State) (x y : Hash5 VectorWord) (st : EngineStatus) :
    (s.eraseData.putRmd x st).eraseData = (s.putRmd y st).eraseData := rfl

theorem shaFinish_eraseData (s : State) (out : Nat) (x y : Hash8 VectorWord) :
    (shaFinish out x s.eraseData).eraseData = (shaFinish out y s).eraseData := rfl

theorem rmdFinish_eraseData (s : State) (out : Nat) (x y : Hash5 VectorWord) :
    (rmdFinish out x s.eraseData).eraseData = (rmdFinish out y s).eraseData := rfl

/-! ### Commands and steps -/

theorem exec_eraseData (i : Instr) (s : State) : eraseAnswer (exec i s.eraseData) = eraseAnswer (exec i s) := by
  cases i with
  | mirror d imm => rfl
  | add d a b => exact aluTwo_eraseData d a b _ s
  | xor d a b => exact aluTwo_eraseData d a b _ s
  | or d a b => exact aluTwo_eraseData d a b _ s
  | and d a b => exact aluTwo_eraseData d a b _ s
  | andn d a b => exact aluTwo_eraseData d a b (~~~· &&& ·) s
  | shl d a n => exact aluOne_eraseData d a (shl32 · n.toNat) s
  | shr d a n => exact aluOne_eraseData d a (shr32 · n.toNat) s
  | rotl d a n =>
    simp only [exec, execRotl, eraseAnswer_ite, aluOne_eraseData]
    rfl
  | load v bo addr =>
    simp only [exec, execLoad, eraseAnswer_ite]
    rfl
  | save v bo recSize addr =>
    simp only [exec, execSave, eraseAnswer_ite]
    rfl
  | shaInit => rfl
  | shaBlock addr =>
    rw [exec_shaBlock, exec_shaBlock]
    refine engineBlock_eraseData ?_ s.sts addr
    exact putSha_eraseData ..
  | shaSave out =>
    rw [exec_shaSave, exec_shaSave]
    refine engineSave_eraseData ?_ s.sts out 32
    exact shaFinish_eraseData ..
  | shaTrunk out inp count =>
    rw [exec_shaTrunk, exec_shaTrunk]
    refine engineTrunk_eraseData ?_ out inp count 32
    exact shaFinish_eraseData ..
  | rmdInit => rfl
  | rmdBlock addr =>
    rw [exec_rmdBlock, exec_rmdBlock]
    refine engineBlock_eraseData ?_ s.str addr
    exact putRmd_eraseData ..
  | rmdSave out =>
    rw [exec_rmdSave, exec_rmdSave]
    refine engineSave_eraseData ?_ s.str out 20
    exact rmdFinish_eraseData ..
  | rmdTrunk out inp count =>
    rw [exec_rmdTrunk, exec_rmdTrunk]
    refine engineTrunk_eraseData ?_ out inp count 20
    exact rmdFinish_eraseData ..

theorem step_eraseData (s : State) : eraseAnswer (step s.eraseData) = eraseAnswer (step s) := by
  have hfetch : fetch s.eraseData = fetch s := rfl
  rw [step, step, hfetch]
  cases fetch s with
  | halted => rfl
  | idle => rfl
  | raises c => rfl
  | command i => exact exec_eraseData i s

/-- Settles O53: two states with the same control have the same erased state, which decides both steps' control. -/
theorem controlIndependentOfData : Obligations.ControlIndependentOfData := by
  intro s u t hsame hstep
  have hnext : eraseAnswer (step u) = .next t.eraseData :=
    calc eraseAnswer (step u)
      _ = eraseAnswer (step u.eraseData) := (step_eraseData u).symm
      _ = eraseAnswer (step s.eraseData) := by rw [(sameControl_iff s u).1 hsame]
      _ = eraseAnswer (step s) := step_eraseData s
      _ = .next t.eraseData := congrArg eraseAnswer hstep
  obtain ⟨t', ht', herase⟩ := eq_next_of_eraseAnswer_eq hnext
  exact ⟨t', ht', (sameControl_iff t t').2 herase⟩

end Sys2Proof.Machine
end

section
/-! SUPPORT. That every run ends (70_reset_and_hazards.md R362, R364): a step of an engine that has words left and runs
halts it or consumes a word. -/

namespace Sys2Proof.Machine

theorem exists_step_next {s : State} (hrun : s.halted = false) : ∃ t, step s = .next t := by
  simp only [step, fetch, hrun, Bool.false_eq_true, if_false]
  cases decode s.cmds with
  | endOfSequence => exact ⟨s, rfl⟩
  | rejected why => exact ⟨_, s.raise_eq _ 0⟩
  | command i rest =>
    obtain ⟨t, ht, -⟩ := exec_cases i s
    exact ⟨t, ht⟩

theorem length_lt_of_decode {ws : List Word} {i : Instr} {rest : List Word} (h : decode ws = .command i rest) :
    rest.length < ws.length := by
  obtain ⟨hdr, args, -, -, hlen, -, rfl⟩ := decode_command h
  have hpos := packetLength_pos i.opcode
  rw [List.length_drop]
  omega

theorem halted_or_cmds_shorter_of_step {s t : State} (hcmds : s.cmds ≠ []) (hstep : step s = .next t) :
    t.halted = true ∨ t.cmds.length < s.cmds.length := by
  obtain ⟨hrun, ⟨hnil, -⟩ | ⟨why, -, rfl⟩ | ⟨i, rest, hdec, -⟩⟩ := step_cases hstep
  · exact absurd hnil hcmds
  · exact .inl (s.takeFault_halted _ _)
  · rcases pcAdvancesByPacketLength s t i rest hrun hdec hstep with ⟨hhalt, -⟩ | ⟨-, -, hrest⟩
    · exact .inl hhalt
    · exact .inr (hrest ▸ length_lt_of_decode hdec)

theorem core_run_succ {s t : State} (h : step s = .next t) (n : Nat) : core.run (n + 1) s = core.run n t := by
  simp only [Host.Core.run, core, h]

theorem ended_iff (s : State) : (s.completed = true ∨ s.faulted = true) ↔ s.cmds = [] ∨ s.halted = true := by
  cases hhalt : s.halted
  · simp [State.completed, State.faulted, hhalt]
  · simp [State.faulted, hhalt]

/-- A run ends within any number of steps that the words left do not exceed. -/
theorem exists_run_ended (k : Nat) (s : State) (hk : s.cmds.length ≤ k) :
    ∃ n, n ≤ k ∧ ∃ t : State, core.run n s = .next t ∧ (t.completed = true ∨ t.faulted = true) := by
  induction k generalizing s with
  | zero => exact ⟨0, le_rfl, s, rfl, (ended_iff s).2 (.inl (List.length_eq_zero_iff.1 (Nat.le_zero.1 hk)))⟩
  | succ k ih =>
    by_cases hend : s.cmds = [] ∨ s.halted = true
    · exact ⟨0, Nat.zero_le _, s, rfl, (ended_iff s).2 hend⟩
    · rw [not_or, Bool.not_eq_true] at hend
      obtain ⟨hcmds, hrun⟩ := hend
      obtain ⟨t, hstep⟩ := exists_step_next hrun
      rcases halted_or_cmds_shorter_of_step hcmds hstep with hhalt | hshorter
      · exact ⟨1, by omega, t, core_run_succ hstep 0, .inr hhalt⟩
      · obtain ⟨n, hn, t', hrun', hend'⟩ := ih t (by omega)
        exact ⟨n + 1, by omega, t', (core_run_succ hstep n).trans hrun', hend'⟩

/-- Settles O13, by induction on a bound of the words left. -/
theorem runsEnd : Obligations.RunsEnd := fun s => exists_run_ended s.cmds.length s le_rfl

end Sys2Proof.Machine
end

section
/-! SUPPORT. What reset leaves (70_reset_and_hazards.md R350, R351). -/

namespace Sys2Proof.Machine

@[simp] theorem portReset_written (s : State) (k : Reg) : (portReset s).written k = false :=
  Vector.getElem_replicate k.isLt

/-- Settles O16: `State.afterReset` gives each field its reset value, and takes W, MEM_ADMIT and memory from `s`. -/
theorem resetLeavesSpecValues : Obligations.ResetLeavesSpecValues := fun s =>
  ⟨portReset_written s, rfl, rfl, rfl, rfl, rfl, rfl, rfl, rfl, rfl, rfl, fun _ => rfl⟩

end Sys2Proof.Machine
end

section
/-! SUPPORT. The words the spec writes out (95_test_vectors.md T6): each packet is what the encoder writes for its command
(30_encoding.md R91, R102), and so it decodes to it. -/

namespace Sys2Proof

/-- The round trip of `decodeInvertsEncode` for a packet given by its words, as the spec writes them out. -/
theorem decode_of_encode_eq {i : Instr} {ws : List Word} (hwf : i.wf = true) (henc : encode i = ws) :
    decode ws = .command i [] := by
  have hround : decode (encode i ++ []) = .command i [] := decodeInvertsEncode i [] hwf
  rwa [List.append_nil, henc] at hround

/-- Settles O4: every command of the list is well-formed and its words are the encoder's, both by evaluation, so that
`decodeInvertsEncode` (O1) reads the command back. -/
theorem specWordsDecode : Obligations.SpecWordsDecode :=
  ⟨decode_of_encode_eq rfl rfl, -- mirror
    decode_of_encode_eq rfl rfl, -- add
    decode_of_encode_eq rfl rfl, -- andn
    decode_of_encode_eq rfl rfl, -- shr
    decode_of_encode_eq rfl rfl, -- rotl
    decode_of_encode_eq rfl rfl, -- load
    decode_of_encode_eq rfl rfl, -- save
    decode_of_encode_eq rfl rfl, -- shaTrunk
    decode_of_encode_eq rfl rfl⟩ -- rmdSave

end Sys2Proof
end
